-- ==== Sys2Proof/Word.lean ====
section
/-! DEFINITION. The words of the block: the bit vectors the spec numbers bit by bit, and the two ports an operation
can arrive on (spec/30_encoding.md R70, R78; spec/00_scope.md R12, R14). -/

namespace Sys2Proof

/-- One byte of the pixel buffer, one colour intensity, or the TAKE response (R50, R75, R79). -/
abbrev Byte := BitVec 8

/-- The command word `cmd[47:0]`; `CMD_W = 48` (R12, R70). -/
abbrev CmdWord := BitVec 48

/-- A 14-bit RC5 word `W[13:0]`; `WORD_W = 14` (R12, R80). -/
abbrev RcWord := BitVec 14

/-- The accumulator `acc[14:0]`; `ACC_W = 15`: 14 word bits and the overflow guard (R12, R23). -/
abbrev AccWord := BitVec 15

/-- The elapsed-tick counter `cnt[7:0]`; `CNT_W = 8` (R11, R26). -/
abbrev Count := BitVec 8

/-- The two ports on which an operation arrives at an edge: the command port with its 48-bit word (R70) and the tick
port with its 2-bit event `{rc5_tick, rc5_in}` (R78). They are separate wires: one edge may carry both (R71). -/
inductive PortWord where
  | command (w : CmdWord)
  | tickPort (v : BitVec 2)
  deriving DecidableEq, Repr

end Sys2Proof
end

