-- ==== Sys2Proof/Syntax.lean ====
section
/-! DEFINITION. The operations of the block as syntax: one constructor for each row of spec/opcode_table.json
(spec/30_encoding.md R71 to R78). -/

namespace Sys2Proof

/-- A colour operand, always given as (R, G, B): three unsigned 8-bit intensities (spec/30_encoding.md R75). -/
structure Color where
  r : Byte
  g : Byte
  b : Byte
  deriving DecidableEq, Repr

/-- The block's operations. `set` carries its coordinates as the signed integers the spec reads them as (R73); `tick`
carries the sampled pin level `rc5_in` (R78). The eleven reserved opcodes are one constructor each (R77). -/
inductive Instr where
  | nop
  | take
  | set (x y : Int) (rgb : Color)
  | clear (rgb : Color)
  | flush
  | reserved5
  | reserved6
  | reserved7
  | reserved8
  | reserved9
  | reservedA
  | reservedB
  | reservedC
  | reservedD
  | reservedE
  | reservedF
  | tick (p : Bool)
  deriving DecidableEq, Repr

end Sys2Proof
end

