-- ==== Sys2Proof/WellFormed.lean ====
section
/-! DEFINITION. Which operations have an encoding: a SET's coordinates fit their signed `COORD_W = 8` bit fields
(spec/20_memory.md R56, spec/30_encoding.md R73). Every other operand is a bit vector of its field's own width. -/

namespace Sys2Proof

/-- `COORD_W`, the width of the signed x and y fields (spec/00_scope.md R9). -/
def coordW : Nat := 8

/-- A coordinate a SET word can carry: −128 .. 127 (R56). -/
def coordFits (v : Int) : Bool := decide (-(2 ^ (coordW - 1)) ≤ v) && decide (v < 2 ^ (coordW - 1))

/-- The operation has an encoding. -/
def Instr.wf : Instr → Bool
  | .set x y _ => coordFits x && coordFits y
  | .nop | .take | .clear _ | .flush | .tick _ => true
  | .reserved5 | .reserved6 | .reserved7 | .reserved8 | .reserved9 | .reservedA => true
  | .reservedB | .reservedC | .reservedD | .reservedE | .reservedF => true

end Sys2Proof
end

