-- ==== Sys2Proof/Decode.lean ====
section
/-! DEFINITION. From port words to operations and back (spec/30_encoding.md R70 to R78). The command word is a parallel
vector with no byte order (spec/20_memory.md R59), so the decoder reads fields by bit position alone. -/

namespace Sys2Proof

/-- Why a port word is no operation. The command port has no such case: its decoder is total (R70). -/
inductive DecodeError where
  /-- A tick-port event with `rc5_tick = 0` is no tick (R78). Safe: nothing runs. -/
  | noTick
  deriving DecidableEq, Repr

/-- `cmd[3:0]`, the opcode (R70). -/
def opcodeField (w : CmdWord) : Nat := (w.extractLsb' 0 4).toNat

/-- `x = sext(cmd[11:4])`: the column (R73). -/
def xField (w : CmdWord) : Int := (w.extractLsb' 4 8).toInt

/-- `y = sext(cmd[19:12])`: the row, measured from the bottom (R73). -/
def yField (w : CmdWord) : Int := (w.extractLsb' 12 8).toInt

/-- `rgb = cmd[43:20]`, with R = `cmd[43:36]`, G = `cmd[35:28]`, B = `cmd[27:20]` (R73, R75). -/
def rgbField (w : CmdWord) : Color :=
  { r := w.extractLsb' 36 8, g := w.extractLsb' 28 8, b := w.extractLsb' 20 8 }

/-- The opcode map of R71. Only `cmd[3:0]` selects the operation, every 48-bit value has exactly one meaning (R70), and
unused bits are not looked at (R76). -/
def decodeCmd (w : CmdWord) : Instr :=
  match opcodeField w with
  | 0x0 => .nop
  | 0x1 => .take
  | 0x2 => .set (xField w) (yField w) (rgbField w)
  | 0x3 => .clear (rgbField w)
  | 0x4 => .flush
  | 0x5 => .reserved5
  | 0x6 => .reserved6
  | 0x7 => .reserved7
  | 0x8 => .reserved8
  | 0x9 => .reserved9
  | 0xA => .reservedA
  | 0xB => .reservedB
  | 0xC => .reservedC
  | 0xD => .reservedD
  | 0xE => .reservedE
  | _ => .reservedF

/-- The tick port: `{rc5_tick, rc5_in} = {1, p}` is a TICK with operand `p`; `rc5_tick = 0` is no tick and `rc5_in` is
then ignored (R78). -/
def decodeTickPort (v : BitVec 2) : Except DecodeError Instr :=
  if v.getLsbD 1 then .ok (.tick (v.getLsbD 0)) else .error .noTick

/-- The decoder, total on both ports. -/
def decode : PortWord → Except DecodeError Instr
  | .command w => .ok (decodeCmd w)
  | .tickPort v => decodeTickPort v

/-! ### The encoder, written from the same tables; it writes unused bits as 0 (R76) -/

/-- Format N: bits 47:4 unused, the opcode in 3:0 (R72). -/
def formatN (op : BitVec 4) : CmdWord := (0#44 ++ op).cast rfl

/-- `cmd[43:20]` holds `#RRGGBB` (R75). -/
def rgbBits (c : Color) : BitVec 24 := (c.r ++ c.g ++ c.b).cast rfl

/-- Format S: bits 47:44 unused, then rgb, y, x and the opcode (R73). -/
def formatS (op : BitVec 4) (x y : Int) (c : Color) : CmdWord :=
  (0#4 ++ rgbBits c ++ BitVec.ofInt 8 y ++ BitVec.ofInt 8 x ++ op).cast rfl

/-- Format C: bits 47:44 and 19:4 unused, rgb and the opcode (R74). -/
def formatC (op : BitVec 4) (c : Color) : CmdWord := (0#4 ++ rgbBits c ++ 0#16 ++ op).cast rfl

/-- The word of an operation, on the port that carries it. -/
def encode : Instr → PortWord
  | .nop => .command (formatN 0x0)
  | .take => .command (formatN 0x1)
  | .set x y c => .command (formatS 0x2 x y c)
  | .clear c => .command (formatC 0x3 c)
  | .flush => .command (formatN 0x4)
  | .reserved5 => .command (formatN 0x5)
  | .reserved6 => .command (formatN 0x6)
  | .reserved7 => .command (formatN 0x7)
  | .reserved8 => .command (formatN 0x8)
  | .reserved9 => .command (formatN 0x9)
  | .reservedA => .command (formatN 0xA)
  | .reservedB => .command (formatN 0xB)
  | .reservedC => .command (formatN 0xC)
  | .reservedD => .command (formatN 0xD)
  | .reservedE => .command (formatN 0xE)
  | .reservedF => .command (formatN 0xF)
  | .tick p => .tickPort ((1#1 ++ BitVec.ofBool p).cast rfl)

/-- The opcode of a command, as the opcode map lists it (R71); a TICK is not a command and has none. -/
def opcodeOf : Instr → Option Nat
  | .nop => some 0x0
  | .take => some 0x1
  | .set _ _ _ => some 0x2
  | .clear _ => some 0x3
  | .flush => some 0x4
  | .reserved5 => some 0x5
  | .reserved6 => some 0x6
  | .reserved7 => some 0x7
  | .reserved8 => some 0x8
  | .reserved9 => some 0x9
  | .reservedA => some 0xA
  | .reservedB => some 0xB
  | .reservedC => some 0xC
  | .reservedD => some 0xD
  | .reservedE => some 0xE
  | .reservedF => some 0xF
  | .tick _ => none

/-- The reserved opcodes 0x5 .. 0xF (R77, R189). -/
def isReserved (i : Instr) : Bool :=
  match opcodeOf i with
  | some op => decide (5 ≤ op)
  | none => false

/-! ### The opcode table's words -/

/-- The port word a table row's bits stand for. A tick-port event is exactly 2 bits and a command word is 48 bits (R77);
the table may list fewer of a command's bits, those above being 0. So 2 bits or fewer are an event of the tick port and
every longer word is a command word (DESIGN CHOICE, assumption 14). -/
def tablePortWord (nbits w : Nat) : PortWord :=
  if nbits ≤ 2 then .tickPort (BitVec.ofNat 2 w) else .command (BitVec.ofNat 48 w)

/-- The operation the decoder reads from a table row's bits. -/
def decodeTableWord (nbits w : Nat) : Option Instr :=
  match decode (tablePortWord nbits w) with
  | .ok i => some i
  | .error _ => none

end Sys2Proof
end

