-- ==== Sys2Proof/Config.lean ====
section
/-! DEFINITION. The build-time configuration (spec/00_scope.md R9 to R12): every parameter of the spec is a field.
Nothing here is changed by any step; which configurations are admitted is in Machine/Params.lean (R13). -/

namespace Sys2Proof

/-- The three colour channels. -/
inductive Channel where
  | R
  | G
  | B
  deriving DecidableEq, Repr

/-- `CHANNEL_ORDER`: which channel each of a slot's three bytes holds; check W6 asks for a permutation of (R, G, B)
(R9, spec/20_memory.md R51). -/
structure ChannelOrder where
  k0 : Channel
  k1 : Channel
  k2 : Channel
  deriving DecidableEq, Repr

/-- The configuration record. A field with a default has the default the spec gives it; a field without one is OPEN, or
follows from the rates by a formula (Machine/Params.lean, `Config.ofRates`) and may be set explicitly (R10, R11). -/
structure Config where
  /-- `N`, the side of the matrix (OPEN, check W1). -/
  n : Nat
  /-- `CHANNEL_ORDER` (OPEN, check W6). -/
  channelOrder : ChannelOrder
  /-- `EVEN_COL_UP`: even logical columns scan bottom to top. -/
  evenColUp : Bool := true
  /-- `CLEAR_LAT`: the cycles a CLEAR holds the command port (check W7). -/
  clearLat : Nat := 1
  /-- `F_CLK_HZ` (OPEN, check W8). -/
  fClkHz : Nat
  /-- `SYM_A`, the cycles of symbol A, always high (check W2). -/
  symA : Nat
  /-- `SYM_B`, the cycles of symbol B, high for a 1 bit (check W2). -/
  symB : Nat
  /-- `SYM_C`, the cycles of symbol C, the low symbol (checks W2, W3). -/
  symC : Nat
  /-- `LOW_MIN_NS`, the lower end of the low symbol's tolerance band. -/
  lowMinNs : Nat := 450
  /-- `LOW_MAX_NS`, the upper end of the low symbol's tolerance band. -/
  lowMaxNs : Nat := 550
  /-- `F_TICK_HZ` (OPEN, check W8). -/
  fTickHz : Nat
  /-- `RC5_BIT_NS`, the nominal RC5 bit period. -/
  rc5BitNs : Nat := 1778000
  /-- `PULSE_MIN`, the glitch threshold in ticks (check W4). -/
  pulseMin : Nat
  /-- `PULSE_MID`, the short/long threshold in ticks (check W4). -/
  pulseMid : Nat
  /-- `PULSE_MAX`, the timeout threshold in ticks (check W4). -/
  pulseMax : Nat
  /-- `RC5_INVERT`, the polarity of `rc5_in`. -/
  rc5Invert : Bool := false
  /-- `CMD6_SRC_BIT`, the word bit whose complement becomes command bit 6 (check W5). -/
  cmd6SrcBit : Nat := 7
  deriving DecidableEq, Repr

/-- Configuration TV, the one the spec's own vectors use (spec/95_test_vectors.md, 92_eei_decisions.md D43). The block has
no configuration of its own: `N`, `F_CLK_HZ`, `F_TICK_HZ` and `CHANNEL_ORDER` are OPEN, and this one only gives the
reset state something to be built from (DESIGN CHOICE, assumption 1). -/
def Config.tv : Config where
  n := 4
  channelOrder := { k0 := .G, k1 := .R, k2 := .B }
  fClkHz := 16000000
  symA := 8
  symB := 8
  symC := 8
  fTickHz := 4500
  pulseMin := 3
  pulseMid := 6
  pulseMax := 10

end Sys2Proof
end

