-- ==== Sys2Proof/Machine/Params.lean ====
section
/-! DEFINITION. What follows from the configuration: derived constants, the default timing formulas, and the admission
checks W1 to W8 (spec/00_scope.md R9 to R13, spec/41_ws2812_transmitter.md R148, R151). -/

namespace Sys2Proof

/-! ### Fixed constants (R12) -/

/-- `START_PATTERN`, the canonical start bits. -/
def startPattern : BitVec 2 := 0b11#2

/-- `CNT_W`, the width of the elapsed-tick counter (R11). -/
def cntW : Nat := 8

namespace Config

/-! ### Derived constants (R9, R10) -/

/-- `NPIX = N*N`. -/
def nPix (c : Config) : Nat := c.n * c.n

/-- `HALF_PIX = NPIX/2`. -/
def halfPix (c : Config) : Nat := c.nPix / 2

/-- `HALF_BYTES = 3*HALF_PIX`. -/
def halfBytes (c : Config) : Nat := 3 * c.halfPix

/-- `BUF_BYTES = 3*NPIX`. -/
def bufBytes (c : Config) : Nat := 3 * c.nPix

/-- `TH0 = SYM_A`, the high time of a 0 bit. -/
def th0 (c : Config) : Nat := c.symA

/-- `TH1 = SYM_A + SYM_B`, the high time of a 1 bit. -/
def th1 (c : Config) : Nat := c.symA + c.symB

/-- `TH(d)` (spec/30_encoding.md R83). -/
def th (c : Config) (d : Bool) : Nat := if d then c.th1 else c.th0

/-- `T_BIT = SYM_A + SYM_B + SYM_C`, the period of one bit. -/
def tBit (c : Config) : Nat := c.symA + c.symB + c.symC

/-- `FLUSH_CYCLES = 24 * NPIX * T_BIT`. -/
def flushCycles (c : Config) : Nat := 24 * c.nPix * c.tBit

/-- `BITS_HALF = 8*HALF_BYTES` (R146). -/
def bitsHalf (c : Config) : Nat := 8 * c.halfBytes

/-- `G`, the least number of ticks between two publishes (spec/70_reset_and_hazards.md R236). -/
def publishGap (c : Config) : Nat := c.pulseMax + 1 + 13 * min (2 * c.pulseMin) (c.pulseMid + 1)

/-! ### Default timing (R10, R11, R148) -/

/-- The cycles of `clk` nearest to 500 ns, a tie rounded up (R148). -/
def defaultSym (fClkHz : Nat) : Nat := (fClkHz * 500 + 500000000) / 1000000000

/-- A threshold at `pct` percent of the bit period, in ticks, rounded half up (R11). -/
def threshold (fTickHz rc5BitNs pct : Nat) : Nat :=
  (fTickHz * rc5BitNs * pct + 50 * 10 ^ 9) / (100 * 10 ^ 9)

/-- The configuration that takes every default from its rates: symbols by R148, thresholds at 40, 80 and 120 percent by
R11, every other parameter at its default. -/
def ofRates (n : Nat) (order : ChannelOrder) (fClkHz fTickHz : Nat) : Config where
  n := n
  channelOrder := order
  fClkHz := fClkHz
  symA := defaultSym fClkHz
  symB := defaultSym fClkHz
  symC := defaultSym fClkHz
  fTickHz := fTickHz
  pulseMin := threshold fTickHz 1778000 40
  pulseMid := threshold fTickHz 1778000 80
  pulseMax := threshold fTickHz 1778000 120

/-! ### Real time (R151, R241) -/

/-- One tick is `1/F_TICK_HZ` seconds. -/
def tickSeconds (c : Config) : Rat := 1 / (c.fTickHz : Rat)

/-- One cycle is `1/F_CLK_HZ` seconds. -/
def cycleSeconds (c : Config) : Rat := 1 / (c.fClkHz : Rat)

/-- The duration of a FLUSH in seconds: `FLUSH_CYCLES / F_CLK_HZ`. -/
def flushSeconds (c : Config) : Rat := (c.flushCycles : Rat) / (c.fClkHz : Rat)

/-! ### Admission (R13) -/

/-- W1: `N` is even and `2 <= N <= 126`. -/
abbrev W1 (c : Config) : Prop := c.n % 2 = 0 ∧ 2 ≤ c.n ∧ c.n ≤ 126

/-- W2: every symbol lasts at least one cycle. -/
abbrev W2 (c : Config) : Prop := 1 ≤ c.symA ∧ 1 ≤ c.symB ∧ 1 ≤ c.symC

/-- W3: the low symbol lasts between `LOW_MIN_NS` and `LOW_MAX_NS`. -/
abbrev W3 (c : Config) : Prop :=
  c.lowMinNs * c.fClkHz ≤ c.symC * 10 ^ 9 ∧ c.symC * 10 ^ 9 ≤ c.lowMaxNs * c.fClkHz

/-- W4: `1 <= PULSE_MIN < PULSE_MID < PULSE_MAX <= 2^CNT_W - 2`. -/
abbrev W4 (c : Config) : Prop :=
  1 ≤ c.pulseMin ∧ c.pulseMin < c.pulseMid ∧ c.pulseMid < c.pulseMax ∧ c.pulseMax ≤ 2 ^ cntW - 2

/-- W5: `0 <= CMD6_SRC_BIT <= 13`. -/
abbrev W5 (c : Config) : Prop := c.cmd6SrcBit ≤ 13

/-- W6: `CHANNEL_ORDER` is a permutation of (R, G, B): three channels, no two the same. -/
abbrev W6 (c : Config) : Prop :=
  c.channelOrder.k0 ≠ c.channelOrder.k1 ∧ c.channelOrder.k0 ≠ c.channelOrder.k2 ∧
    c.channelOrder.k1 ≠ c.channelOrder.k2

/-- W7: `CLEAR_LAT >= 1`. -/
abbrev W7 (c : Config) : Prop := 1 ≤ c.clearLat

/-- W8: both rates are at least 1 Hz. -/
abbrev W8 (c : Config) : Prop := 1 ≤ c.fClkHz ∧ 1 ≤ c.fTickHz

/-- The configuration is admitted: every check of R13 holds. -/
abbrev Admitted (c : Config) : Prop :=
  c.W1 ∧ c.W2 ∧ c.W3 ∧ c.W4 ∧ c.W5 ∧ c.W6 ∧ c.W7 ∧ c.W8

end Config

/-- The admission checks of R13, by name. -/
inductive Check where
  | w1 | w2 | w3 | w4 | w5 | w6 | w7 | w8
  deriving DecidableEq, Repr

/-- Whether one check holds. -/
def Check.holds (c : Config) : Check → Bool
  | .w1 => decide c.W1
  | .w2 => decide c.W2
  | .w3 => decide c.W3
  | .w4 => decide c.W4
  | .w5 => decide c.W5
  | .w6 => decide c.W6
  | .w7 => decide c.W7
  | .w8 => decide c.W8

/-- The first check a configuration fails, if any: the build-time refusal of R13 and R204. -/
def Config.refusedBy (c : Config) : Option Check :=
  [Check.w1, .w2, .w3, .w4, .w5, .w6, .w7, .w8].find? fun k => !k.holds c

end Sys2Proof
end

