-- ==== Sys2Proof/Machine/State.lean ====
section
/-! DEFINITION. The state of the block as plain data (spec/10_state.md): every register, the pixel buffer, its ghost
bits, the build-time configuration, and the inputs still to come. No field holds a function. -/

namespace Sys2Proof.Machine

/-- An admitted configuration: hardware exists only for a configuration together with a proof of W1 to W8 (R13, R204). -/
structure Build where
  cfg : Config
  admitted : cfg.Admitted
  deriving DecidableEq, Repr

/-- The bit-phase flag's two values (R25): the last accepted transition was a mid-bit one, or a boundary one. -/
inductive Phase where
  | mid
  | bnd
  deriving DecidableEq, Repr

/-- The decoder's registers (R23 to R26). -/
structure Decoder where
  /-- `acc[14:0]`: the partial word in bits 13:0, the overflow guard in bit 14; 0 means idle (R23). -/
  acc : AccWord
  /-- `lvl`: the logical level at the last edge, or at reset (R24). -/
  lvl : Bool
  /-- `phase`: the bit-phase flag (R25). -/
  phase : Phase
  /-- `cnt`: ticks since the last edge, saturating (R26). -/
  cnt : Count
  deriving DecidableEq, Repr

/-- The single-slot mailbox (R27, R28). -/
structure Mailbox where
  valid : Bool
  word : RcWord
  deriving DecidableEq, Repr

/-- The symbols of one transmitted bit, A = 0, B = 1, C = 2; the value 3 is never held (R32). -/
inductive Sym where
  | A
  | B
  | C
  deriving DecidableEq, Repr

/-- The transmitter's registers (R31, R32). `idx` and `cyc` have the widths their ranges need; the ranges are an
invariant (Safety.lean). -/
structure Transmitter where
  /-- `tx_busy` (R31). -/
  busy : Bool
  /-- `tx_half`: the half-frame being sent, which is also the line driven (R32). -/
  half : Fin 2
  /-- `tx_idx`: the byte index within the half, `0 .. HALF_BYTES-1` (R32). -/
  idx : Nat
  /-- `tx_bit`: the bit within the byte, 7 down to 0 (R32). -/
  bit : BitVec 3
  /-- `tx_sym` (R32). -/
  sym : Sym
  /-- `tx_cyc`: the cycle within the symbol (R32). -/
  cyc : Nat
  deriving DecidableEq, Repr

/-- The TAKE response registers (R34). -/
structure Response where
  valid : Bool
  data : Byte
  deriving DecidableEq, Repr

/-- The input ports as one edge of `clk` samples them (R41). -/
structure EdgeIn where
  rst : Bool
  cmdValid : Bool
  cmd : CmdWord
  rc5Tick : Bool
  rc5In : Bool
  deriving DecidableEq, Repr

/-- `IDLE`: one edge with no reset, no command and no tick (spec/30_encoding.md R85). -/
def EdgeIn.idle : EdgeIn :=
  { rst := false, cmdValid := false, cmd := 0, rc5Tick := false, rc5In := false }

/-- The output ports during the cycle after an edge (R41). A waveform line is `none` where it would show a pixel byte that
nothing has ever written: that byte has no value in the model (R29, R150). -/
structure Outputs where
  cmdReady : Bool
  rspValid : Bool
  rspData : Byte
  rc5Avail : Bool
  txBusy : Bool
  cmdErr : Bool
  wsOut0 : Option Bool
  wsOut1 : Option Bool
  deriving DecidableEq, Repr

/-- The pixel byte space as (address, byte) pairs (spec/20_memory.md R50); an address with no pair has no value. -/
abbrev Memory := List Host.Cell

/-- The ghost bits `pb_w` as the addresses whose bit is 1 (R30). -/
abbrev Marks := List Nat

/-- The whole state. -/
structure State where
  /-- The build-time configuration: constant, read-only, hardwired (R37). -/
  build : Build
  /-- `acc`, `lvl`, `phase`, `cnt` (R23 to R26). -/
  dec : Decoder
  /-- `mbox_valid`, `mbox_word` (R27, R28). -/
  mbox : Mailbox
  /-- `pb_mem` (R29). -/
  pbMem : Memory
  /-- `pb_w`, model-only ghost state (R30). -/
  pbW : Marks
  /-- `tx_busy` and the sequencer position (R31, R32). -/
  tx : Transmitter
  /-- `clr_cnt` (R33). -/
  clrCnt : Nat
  /-- `rsp_valid`, `rsp_data` (R34). -/
  rsp : Response
  /-- `cmd_err` (R35). -/
  cmdErr : Bool
  /-- The model's own field: what the input ports carry at the coming edges, the next edge first (assumption 2). -/
  pins : List EdgeIn
  deriving DecidableEq, Repr

/-- The machine's faults. -/
inductive Fault where
  /-- Raised by an accepted FLUSH while byte `a` is the lowest byte of the buffer not written since reset (R150, R203). The
  hardware goes on and sends the power-up content, to which the model gives no value. Safe. -/
  | unwrittenPixel (a : Nat)
  deriving DecidableEq, Repr

/-- The machine's refusals. -/
inductive Refusal where
  /-- Raised by an arm of `exec` whose instruction has no meaning yet; no arm is left so. Safe. -/
  | notModelled (mnemonic : String)
  deriving DecidableEq, Repr

/-- The configuration of a state. -/
abbrev State.cfg (s : State) : Config := s.build.cfg

/-! ### One setter for each field a step changes -/

/-- Replace the decoder's registers. -/
def State.withDec (s : State) (d : Decoder) : State := { s with dec := d }

/-- Replace the mailbox. -/
def State.withMbox (s : State) (m : Mailbox) : State := { s with mbox := m }

/-- Replace the pixel buffer and its ghost bits, which change together (R170, R172). -/
def State.withBuffer (s : State) (m : Memory) (w : Marks) : State := { s with pbMem := m, pbW := w }

/-- Replace the transmitter's registers. -/
def State.withTx (s : State) (t : Transmitter) : State := { s with tx := t }

/-- Replace `clr_cnt`. -/
def State.withClrCnt (s : State) (k : Nat) : State := { s with clrCnt := k }

/-- Replace the response registers. -/
def State.withRsp (s : State) (r : Response) : State := { s with rsp := r }

/-- Replace `cmd_err`. -/
def State.withCmdErr (s : State) (b : Bool) : State := { s with cmdErr := b }

/-- Replace the inputs still to come. -/
def State.withPins (s : State) (p : List EdgeIn) : State := { s with pins := p }

/-! ### Reset values (R40) -/

/-- The decoder after reset: empty, level 0, MID, `cnt = 255` (R40). -/
def Decoder.initial : Decoder := { acc := 0, lvl := false, phase := .mid, cnt := 255 }

/-- The transmitter after reset: not busy, position (0, 0, 7, A, 0) (R40). -/
def Transmitter.initial : Transmitter :=
  { busy := false, half := 0, idx := 0, bit := 7, sym := .A, cyc := 0 }

/-- The state after a reset edge at power-up, for any admitted configuration: the values of R40, no pixel byte written,
and nothing on the input ports. -/
def State.resetOf (b : Build) : State where
  build := b
  dec := Decoder.initial
  mbox := { valid := false, word := 0 }
  pbMem := []
  pbW := []
  tx := Transmitter.initial
  clrCnt := 0
  rsp := { valid := false, data := 0 }
  cmdErr := false
  pins := []

/-- Configuration TV is admitted. -/
def Build.tv : Build := { cfg := Config.tv, admitted := by decide }

/-- The machine right after reset, in configuration TV (assumption 1); `State.resetOf` is the same for every admitted
configuration. -/
def State.reset : State := State.resetOf Build.tv

end Sys2Proof.Machine
end

