-- ==== Sys2Proof/Machine/Ops.lean ====
section
/-! DEFINITION. The named operations over the pixel byte space and its ghost bits, and the reset edge
(spec/20_memory.md R50 to R61, spec/70_reset_and_hazards.md R230). The block takes no exception and returns from none
(spec/60_exceptions.md R209, R210): there is no saved pc, status or cause to write, so no such operation stands here. The
one thing a model must stop at, a FLUSH of unwritten bytes, is found by `firstUnwritten` (R150). -/

namespace Sys2Proof.Machine

/-! ### The byte space -/

/-- Canonical form: addresses strictly rising. An unlisted address has no value, so no listed byte can equal it. -/
abbrev Memory.wf (m : Memory) : Prop := m.Pairwise fun p q => p.1 < q.1

/-- The byte at an address, or none where nothing has ever written (assumption 3). -/
def Memory.read (m : Memory) (a : Nat) : Option Byte :=
  match m with
  | [] => none
  | (k, v) :: rest => if k = a then some v else Memory.read rest a

/-- Write one byte, keeping the addresses rising. -/
def Memory.write (m : Memory) (a : Nat) (v : Byte) : Memory :=
  match m with
  | [] => [(a, v)]
  | (k, u) :: rest =>
    if a < k then (a, v) :: (k, u) :: rest
    else if a = k then (a, v) :: rest
    else (k, u) :: Memory.write rest a v

/-- `MemRead(addr, n)`: `n` bytes from `addr` up, the byte at `addr` most significant (spec/00_scope.md R15). -/
def Memory.readBytes (m : Memory) (a : Nat) : Nat → Option Nat
  | 0 => some 0
  | k + 1 =>
    match m.read a, Memory.readBytes m (a + 1) k with
    | some v, some rest => some (v.toNat * 256 ^ k + rest)
    | _, _ => none

/-- `MemWrite(addr, n, v)`: `n` bytes likewise (spec/00_scope.md R15). -/
def Memory.writeBytes (m : Memory) (a : Nat) : Nat → Nat → Memory
  | 0, _ => m
  | k + 1, v => Memory.writeBytes (m.write a (BitVec.ofNat 8 (v / 256 ^ k))) (a + 1) k v

/-! ### The ghost bits (R30) -/

/-- Canonical form: addresses strictly rising. -/
abbrev Marks.wf (w : Marks) : Prop := w.Pairwise fun p q => p < q

/-- `pb_w[a] <- 1`. -/
def Marks.mark (w : Marks) (a : Nat) : Marks :=
  match w with
  | [] => [a]
  | k :: rest =>
    if a < k then a :: k :: rest
    else if a = k then k :: rest
    else k :: Marks.mark rest a

/-- `pb_w[a] == 1`. -/
def Marks.written (w : Marks) (a : Nat) : Bool := decide (a ∈ w)

/-- The lowest `a` in `0 .. BUF_BYTES-1` with `pb_w[a] == 0` (R150). -/
def firstUnwritten (c : Config) (w : Marks) : Option Nat :=
  (List.range c.bufBytes).find? fun a => !w.written a

/-! ### Stores to the buffer -/

/-- `pb_mem[a] <- v ; pb_w[a] <- 1` (R170). -/
def storeByte (a : Nat) (v : Byte) (s : State) : State :=
  s.withBuffer (s.pbMem.write a v) (s.pbW.mark a)

/-- Byte `3*i + k` of slot `i`: where channel `k` of a slot lies (R51). -/
def byteAddr (i k : Nat) : Nat := 3 * i + k

/-! ### The reset edge -/

/-- An edge with `rst = 1`: every register takes its reset value, `pb_w` is cleared, `pb_mem` keeps its contents; the
configuration, being no register, stays (R230, R232). -/
def clockReset (s : State) : State :=
  ((State.resetOf s.build).withBuffer s.pbMem []).withPins s.pins

end Sys2Proof.Machine
end

