-- ==== Sys2Proof/Machine/Operands.lean ====
section
/-! DEFINITION. The operand forms: the sampled pin level (spec/40_rc5_decoder.md R102), a logical coordinate and its
serpentine translation (spec/20_memory.md R52, R53), and a colour and its placement in a slot (R51, R171). -/

namespace Sys2Proof.Machine

/-! ### The pin -/

/-- Input stage: `b = rc5_in XOR RC5_INVERT`, the logical level (R102). -/
def inputStage (c : Config) (p : Bool) : Bool := p ^^ c.rc5Invert

/-! ### Coordinates -/

/-- The bounds check: `0 <= x < N` and `0 <= y < N`, as signed integers (R53). -/
def inRange (c : Config) (x y : Int) : Bool :=
  decide (0 ≤ x) && decide (x < (c.n : Int)) && decide (0 ≤ y) && decide (y < (c.n : Int))

/-- The serpentine map of an in-range coordinate: `x*N + (y or N-1-y)` (R52). -/
def slot (c : Config) (x y : Nat) : Nat :=
  x * c.n + (if decide (x % 2 = 0) = c.evenColUp then y else c.n - 1 - y)

/-- Only an in-range coordinate is translated; any other gives no slot and so no access at all (R53). -/
def slotOf (c : Config) (x y : Int) : Option Nat :=
  if inRange c x y then some (slot c x.toNat y.toNat) else none

/-! ### Colours -/

/-- `channel(rgb, X)`: the intensity of one channel (R170). -/
def channelOf (col : Color) : Channel → Byte
  | .R => col.r
  | .G => col.g
  | .B => col.b

/-- `CHANNEL_ORDER[k]` for k in 0, 1, 2 (R51). -/
def orderAt (o : ChannelOrder) : Nat → Channel
  | 0 => o.k0
  | 1 => o.k1
  | _ => o.k2

/-- The byte a colour leaves in place `k` of a slot (R171). -/
def placedByte (c : Config) (col : Color) (k : Nat) : Byte := channelOf col (orderAt c.channelOrder k)

/-- Write a slot's three bytes in wiring order, and their ghost bits (R170). -/
def storeSlot (i : Nat) (col : Color) (s : State) : State :=
  storeByte (byteAddr i 2) (placedByte s.cfg col 2)
    (storeByte (byteAddr i 1) (placedByte s.cfg col 1)
      (storeByte (byteAddr i 0) (placedByte s.cfg col 0) s))

/-- Write slots `0 .. k-1` (R172). -/
def fillSlots (col : Color) : Nat → State → State
  | 0, s => s
  | k + 1, s => storeSlot k col (fillSlots col k s)

end Sys2Proof.Machine
end

