-- ==== Sys2Proof/Machine/Flags.lean ====
section
/-! DEFINITION. The flags and the computations that set them: the elapsed counter, the start-bit validator, the mailbox,
the response registers and `cmd_err` (spec/10_state.md R38). -/

namespace Sys2Proof.Machine

/-- `sat_inc(c) = min(c + 1, 2^CNT_W - 1)` (spec/00_scope.md R15, spec/40_rc5_decoder.md R103). -/
def satInc (k : Count) : Count := BitVec.ofNat 8 (min (k.toNat + 1) (2 ^ cntW - 1))

/-- The start-bit validator: exactly 14 bits received, beginning with the canonical start bits (R105). -/
def startValid (a : AccWord) : Bool := !a.getLsbD 14 && decide (a.extractLsb' 12 2 = startPattern)

/-- `reduce(W)`: bits 5:0 are the command field, bit 6 the complement of bit `CMD6_SRC_BIT` (spec/30_encoding.md R82, R118). -/
def reduce (c : Config) (w : RcWord) : BitVec 7 :=
  (BitVec.ofBool (!w.getLsbD c.cmd6SrcBit) ++ w.extractLsb' 0 6).cast rfl

/-- The TAKE response: `{1, reduce(mbox_word)}`, or 0x00 for "none" (R79, R117). -/
def takeData (c : Config) (m : Mailbox) : Byte := if m.valid then (1#1 ++ reduce c m.word).cast rfl else 0x00

/-- `publish(w)`: an unconsumed word is overwritten (R115). -/
def publish (w : RcWord) (s : State) : State := s.withMbox { valid := true, word := w }

/-- Publish if the tick's timeout stage asks for it (R101). -/
def publishIf (pub : Option RcWord) (s : State) : State :=
  match pub with
  | some w => publish w s
  | none => s

/-- Clear `mbox_valid`; `mbox_word` is not cleared (R117). -/
def emptyMailbox (s : State) : State := s.withMbox { s.mbox with valid := false }

/-- `rsp_valid <- 1` and `rsp_data <- v` (R117). -/
def respond (v : Byte) (s : State) : State := s.withRsp { valid := true, data := v }

/-- `rsp_valid <- 0`, `rsp_data` keeps its value: every edge that accepts no TAKE (R34, R191). -/
def dropResponse (s : State) : State := s.withRsp { s.rsp with valid := false }

/-- `cmd_err <- 1`, sticky (R35, R189). -/
def flagReserved (s : State) : State := s.withCmdErr true

end Sys2Proof.Machine
end

