-- ==== Sys2Proof/Machine/PixelBuffer.lean ====
section
/-! DEFINITION. The pixel buffer: SET and CLEAR (spec/42_pixel_buffer.md). -/

namespace Sys2Proof.Machine

/-- SET x, y, rgb: write the slot of an in-range coordinate; any other coordinate is a defined no-op (R170, R174). -/
def execSet (x y : Int) (rgb : Color) (s : State) : Host.Outcome State Fault Refusal :=
  match slotOf s.cfg x y with
  | some i => .next (storeSlot i rgb s)
  | none => .next s

/-- CLEAR rgb: write every slot, and hold the port for `CLEAR_LAT - 1` further edges (R172, R173). -/
def execClear (rgb : Color) (s : State) : Host.Outcome State Fault Refusal :=
  .next ((fillSlots rgb s.cfg.nPix s).withClrCnt (s.cfg.clearLat - 1))

/-- At an edge with `clr_cnt != 0`, `clr_cnt <- clr_cnt - 1` (R173). -/
def clearStall (s : State) : State := s.withClrCnt (s.clrCnt - 1)

end Sys2Proof.Machine
end

