-- ==== Sys2Proof/Machine/Rc5Decoder.lean ====
section
/-! DEFINITION. The RC5 decoder: TICK and TAKE (spec/40_rc5_decoder.md). -/

namespace Sys2Proof.Machine

/-- The classes of an edge (R107). -/
inductive EdgeClass where
  /-- `e < PULSE_MIN` (R108). -/
  | glitch
  /-- an edge while idle (R109). -/
  | start
  /-- short after a mid-bit transition: carries no bit (R110). -/
  | boundary
  /-- short after a boundary transition: a mid-bit transition (R111). -/
  | midShort
  /-- long after a mid-bit transition: a mid-bit transition (R112). -/
  | midLong
  /-- long after a boundary transition (R113). -/
  | malformed
  deriving DecidableEq, Repr

/-- The shifter: the new bit enters at bit 0 while the overflow guard is clear; after that nothing moves (R114). -/
def shiftIn (a : AccWord) (b : Bool) : AccWord :=
  if a.getLsbD 14 then a else (a.extractLsb' 0 14 ++ BitVec.ofBool b).cast rfl

/-- The transition classifier, with the elapsed count and the accumulator after the timeout stage (R107). -/
def classify (c : Config) (e : Nat) (a : AccWord) (ph : Phase) : EdgeClass :=
  if e < c.pulseMin then .glitch
  else if a = 0 then .start
  else if e ≤ c.pulseMid then
    match ph with
    | .mid => .boundary
    | .bnd => .midShort
  else
    match ph with
    | .mid => .midLong
    | .bnd => .malformed

/-- The accumulator and phase after an edge of each class (R108 to R113). -/
def edgeStage (b : Bool) (a : AccWord) (ph : Phase) : EdgeClass → AccWord × Phase
  | .glitch => (0, ph)
  | .start => ((BitVec.ofBool b).setWidth 15, .mid)
  | .boundary => (a, .bnd)
  | .midShort => (shiftIn a b, .mid)
  | .midLong => (shiftIn a b, ph)
  | .malformed => (0, ph)

/-- The idle timeout: at `e > PULSE_MAX` the accumulator empties, and a valid word is published (R104). -/
def timeoutStage (c : Config) (e : Nat) (a : AccWord) : AccWord × Option RcWord :=
  if c.pulseMax < e then (0, if startValid a then some (a.extractLsb' 0 14) else none) else (a, none)

/-- One tick as a function of the decoder's registers: the registers after it, and the word it publishes, if any (R101).
The timeout runs before the edge. -/
def tickDecoder (c : Config) (p : Bool) (d : Decoder) : Decoder × Option RcWord :=
  let b := inputStage c p
  let e := satInc d.cnt
  let t := timeoutStage c e.toNat d.acc
  if b = d.lvl then ({ d with acc := t.1, cnt := e }, t.2)
  else
    let r := edgeStage b t.1 d.phase (classify c e.toNat t.1 d.phase)
    ({ acc := r.1, lvl := b, phase := r.2, cnt := 0 }, t.2)

/-- TICK p (R101). -/
def execTick (p : Bool) (s : State) : Host.Outcome State Fault Refusal :=
  .next (publishIf (tickDecoder s.cfg p s.dec).2 (s.withDec (tickDecoder s.cfg p s.dec).1))

/-- TAKE: respond from the mailbox and empty it (R117). A publish at the same edge comes after it (R119, Edge.lean). -/
def execTake (s : State) : Host.Outcome State Fault Refusal :=
  .next (emptyMailbox (respond (takeData s.cfg s.mbox) s))

/-- idle is `acc == 0`, collecting is `acc != 0` (R116). -/
def collecting (d : Decoder) : Bool := decide (d.acc ≠ 0)

/-! ### The RC5 word and its line (spec/30_encoding.md R80, R81) -/

/-- The fields of a word: S1, S2, T, A and C (R80). -/
def wordS1 (w : RcWord) : Bool := w.getLsbD 13
/-- The second start bit, or field bit (R80). -/
def wordS2 (w : RcWord) : Bool := w.getLsbD 12
/-- The toggle bit (R80). -/
def wordToggle (w : RcWord) : Bool := w.getLsbD 11
/-- The 5-bit address (R80). -/
def wordAddress (w : RcWord) : BitVec 5 := w.extractLsb' 6 5
/-- The 6-bit command (R80). -/
def wordCommand (w : RcWord) : BitVec 6 := w.extractLsb' 0 6

/-- The logical levels of the two half-bits of each of the word's bits `k-1 .. 0`: a bit of value v is at `~v`, then at
`v` (R81). -/
def halfBits (w : RcWord) : Nat → List Bool
  | 0 => []
  | k + 1 => (!w.getLsbD k) :: w.getLsbD k :: halfBits w k

/-- The 28 half-bits of a frame, first sent first: bit 13 down to bit 0 (R58, R81). -/
def frameLevels (w : RcWord) : List Bool := halfBits w 14

/-- The pin level that gives a logical level (R18, R85). -/
def pinOf (c : Config) (b : Bool) : Bool := b ^^ c.rc5Invert

end Sys2Proof.Machine
end

