-- ==== Sys2Proof/Machine/Ws2812.lean ====
section
/-! DEFINITION. The WS2812 transmitter: FLUSH, the timing sequencer, the 3-symbol encoder and the waveform driver
(spec/41_ws2812_transmitter.md). -/

namespace Sys2Proof.Machine

/-- `len(A) = SYM_A`, `len(B) = SYM_B`, `len(C) = SYM_C` (R142). -/
def symLen (c : Config) : Sym → Nat
  | .A => c.symA
  | .B => c.symB
  | .C => c.symC

/-- The position at the first cycle of a transmission (R141). -/
def startTx : Transmitter := { busy := true, half := 0, idx := 0, bit := 7, sym := .A, cyc := 0 }

/-- FLUSH: start a transmission, or stop at the lowest unwritten byte (R141, R150). -/
def execFlush (s : State) : Host.Outcome State Fault Refusal :=
  match firstUnwritten s.cfg s.pbW with
  | some a => .fault (.unwrittenPixel a)
  | none => .next (s.withTx startTx)

/-! ### The timing sequencer (R142) -/

/-- After the last cycle of a half: the other half, or the end of the transmission. -/
def endHalf (t : Transmitter) : Transmitter :=
  if t.half = 0 then { t with half := 1 } else { t with busy := false, half := 0 }

/-- After the last cycle of a byte. -/
def endByte (c : Config) (t : Transmitter) : Transmitter :=
  if t.idx + 1 < c.halfBytes then { t with idx := t.idx + 1 } else endHalf { t with idx := 0 }

/-- After the last cycle of a bit. -/
def endBit (c : Config) (t : Transmitter) : Transmitter :=
  if t.bit ≠ 0 then { t with bit := t.bit - 1 } else endByte c { t with bit := 7 }

/-- After the last cycle of a symbol: A, then B, then C. -/
def endSym (c : Config) (t : Transmitter) : Transmitter :=
  match t.sym with
  | .A => { t with sym := .B }
  | .B => { t with sym := .C }
  | .C => endBit c { t with sym := .A }

/-- The position one clock cycle on (R142, `STEP`). -/
def advance (c : Config) (t : Transmitter) : Transmitter :=
  if t.cyc + 1 < symLen c t.sym then { t with cyc := t.cyc + 1 } else endSym c { t with cyc := 0 }

/-- The sequencer at an edge: a step while busy, else the position is held (R142). -/
def sequencer (s : State) : State := if s.tx.busy then s.withTx (advance s.cfg s.tx) else s

/-! ### The 3-symbol encoder and the waveform driver -/

/-- The address of the byte being sent, `tx_half*HALF_BYTES + tx_idx` (R145). -/
def sentAddr (c : Config) (t : Transmitter) : Nat := t.half.val * c.halfBytes + t.idx

/-- The data bit being sent: bit `tx_bit` of that byte, none where the byte has no value (R143). -/
def dataBit (s : State) : Option Bool :=
  (s.pbMem.read (sentAddr s.cfg s.tx)).map fun v => v.getLsbD s.tx.bit.toNat

/-- The current level: 1 in symbol A, the data bit in symbol B, 0 in symbol C (R143). -/
def txLevel (s : State) : Option Bool :=
  match s.tx.sym with
  | .A => some true
  | .B => dataBit s
  | .C => some false

/-- Line `h` of the driver: the level on the selected line while busy, else 0 (R144). -/
def wsOut (s : State) (h : Fin 2) : Option Bool :=
  if s.tx.busy ∧ s.tx.half = h then txLevel s else some false

/-! ### The closed form of one transmission (R146) -/

/-- The level of line `h` in cycle `m` of a transmission of buffer `mem`, as R146 writes it. -/
def waveform (c : Config) (mem : Memory) (m : Nat) (h : Fin 2) : Option Bool :=
  if m < c.flushCycles ∧ m / (c.bitsHalf * c.tBit) = h.val then
    let r := m % (c.bitsHalf * c.tBit)
    let j := r / (8 * c.tBit)
    let bit := 7 - (r / c.tBit) % 8
    let cyc := r % c.tBit
    if cyc < c.th0 then some true
    else if cyc < c.th1 then (mem.read (h.val * c.halfBytes + j)).map fun v => v.getLsbD bit
    else some false
  else some false

end Sys2Proof.Machine
end

