-- ==== Sys2Proof/Machine/CommandPort.lean ====
section
/-! DEFINITION. The command port: NOP, the reserved opcodes, the handshake, and the outputs
(spec/43_command_port.md). -/

namespace Sys2Proof.Machine

/-- NOP: nothing (R188). -/
def execNop (s : State) : Host.Outcome State Fault Refusal := .next s

/-! ### Reserved opcodes: set `cmd_err`, nothing else (R189, R77) -/

/-- Opcode 0x5. -/
def execReserved5 (s : State) : Host.Outcome State Fault Refusal := .next (flagReserved s)
/-- Opcode 0x6. -/
def execReserved6 (s : State) : Host.Outcome State Fault Refusal := .next (flagReserved s)
/-- Opcode 0x7. -/
def execReserved7 (s : State) : Host.Outcome State Fault Refusal := .next (flagReserved s)
/-- Opcode 0x8. -/
def execReserved8 (s : State) : Host.Outcome State Fault Refusal := .next (flagReserved s)
/-- Opcode 0x9. -/
def execReserved9 (s : State) : Host.Outcome State Fault Refusal := .next (flagReserved s)
/-- Opcode 0xA. -/
def execReservedA (s : State) : Host.Outcome State Fault Refusal := .next (flagReserved s)
/-- Opcode 0xB. -/
def execReservedB (s : State) : Host.Outcome State Fault Refusal := .next (flagReserved s)
/-- Opcode 0xC. -/
def execReservedC (s : State) : Host.Outcome State Fault Refusal := .next (flagReserved s)
/-- Opcode 0xD. -/
def execReservedD (s : State) : Host.Outcome State Fault Refusal := .next (flagReserved s)
/-- Opcode 0xE. -/
def execReservedE (s : State) : Host.Outcome State Fault Refusal := .next (flagReserved s)
/-- Opcode 0xF. -/
def execReservedF (s : State) : Host.Outcome State Fault Refusal := .next (flagReserved s)

/-! ### The handshake -/

/-- `cmd_ready`: not transmitting and not stalled by a CLEAR, both read before the edge (R186). -/
def cmdReady (s : State) : Bool := !s.tx.busy && decide (s.clrCnt = 0)

/-- The operation the command port accepts at an edge: `decode(cmd)` when a command is presented to a ready port, else
none (R185, R187). -/
def acceptedCmd (e : EdgeIn) (s : State) : Option Instr :=
  if e.cmdValid && cmdReady s then some (decodeCmd e.cmd) else none

/-- The operation the tick port carries at an edge (R78). -/
def tickEvent (e : EdgeIn) : Option Instr :=
  match decodeTickPort ((BitVec.ofBool e.rc5Tick ++ BitVec.ofBool e.rc5In).cast rfl) with
  | .ok i => some i
  | .error _ => none

/-! ### The ports -/

/-- The input ports at an edge that carries one port word and nothing else. -/
def EdgeIn.ofPortWord : PortWord → EdgeIn
  | .command w => { EdgeIn.idle with cmdValid := true, cmd := w }
  | .tickPort v => { EdgeIn.idle with rc5Tick := v.getLsbD 1, rc5In := v.getLsbD 0 }

/-- The output ports in the cycle after the edge that led to a state: functions of that state alone (R185). -/
def outputs (s : State) : Outputs where
  cmdReady := cmdReady s
  rspValid := s.rsp.valid
  rspData := s.rsp.data
  rc5Avail := s.mbox.valid
  txBusy := s.tx.busy
  cmdErr := s.cmdErr
  wsOut0 := wsOut s 0
  wsOut1 := wsOut s 1

end Sys2Proof.Machine
end

