-- ==== Sys2Proof/Machine/Edge.lean ====
section
/-! DEFINITION. One edge of `clk`: how the operations that arrive at one edge, the sequencer and the stall counter are
merged (spec/43_command_port.md R185). R185 reads every register before the edge and writes them all together; here the
same is done in an order in which no part reads what an earlier part wrote: first what happens at every edge, then the
accepted command, then the tick. So a TAKE sees the mailbox from before the edge, and a publish at its edge comes after
it (R119). -/

namespace Sys2Proof.Machine

/-- What an edge without reset does whatever arrives: `rsp_valid` falls (a TAKE raises it again), the sequencer steps while
busy, a non-zero `clr_cnt` counts down (R185, R34, R142, R173). -/
def background (s : State) : State := clearStall (sequencer (dropResponse s))

/-- Run the operation of a port, if it carries one. -/
def runPort (op : Option Instr) (s : State) : Host.Outcome State Fault Refusal :=
  match op with
  | some i => exec i s
  | none => .next s

/-- Go on from a next state; a fault or a refusal stops the edge. -/
def andThen (o : Host.Outcome State Fault Refusal) (f : State → Host.Outcome State Fault Refusal) :
    Host.Outcome State Fault Refusal :=
  match o with
  | .next s => f s
  | .fault r => .fault r
  | .refused r => .refused r

/-- One edge with the inputs `e`. `rst = 1` masks everything else (R208, R230). -/
def clockEdge (e : EdgeIn) (s : State) : Host.Outcome State Fault Refusal :=
  if e.rst then .next (clockReset s)
  else andThen (runPort (acceptedCmd e s) (background s)) (runPort (tickEvent e))

/-- The inputs at the next edge; past the last one listed the ports are idle (assumption 2). -/
def nextInputs (s : State) : EdgeIn := s.pins.headD EdgeIn.idle

/-- The inputs of the next edge are used up. -/
def consumeInputs (s : State) : State := s.withPins s.pins.tail

/-- Present one port word, and nothing else, at the next edge (assumption 14). -/
def presentNext (w : PortWord) (s : State) : State := s.withPins (EdgeIn.ofPortWord w :: s.pins.tail)

end Sys2Proof.Machine
end

