-- ==== Sys2Proof/Machine/Step.lean ====
section
/-! DEFINITION. One step is one rising edge of `clk` (spec/00_scope.md R8). -/

namespace Sys2Proof.Machine

/-- The next-state function: sample the input ports, then the edge (R185). -/
def step (s : State) : Host.Outcome State Fault Refusal := clockEdge (nextInputs s) (consumeInputs s)

/-- The state with an operation's word on its port at the next edge (assumption 14). -/
def State.withFetchWord (s : State) (nbits w : Nat) : State := presentNext (tablePortWord nbits w) s

end Sys2Proof.Machine
end

