-- ==== Sys2Proof/Machine/Assembler.lean ====
section
/-! DEFINITION. The textual form of stimuli and the host that drives the ports from it (spec/30_encoding.md R84, R85;
spec/43_command_port.md R190). The host is outside the block: nothing here is part of a step. -/

namespace Sys2Proof.Machine

/-- One statement: a command, a tick, both at one edge (`||`), or neither (`IDLE`) (R84, R85). -/
structure Stmt where
  cmd : Option Instr
  tick : Option Bool
  deriving DecidableEq, Repr

/-- Put a port word on its port, leaving the other port as it is. -/
def presentOn (w : PortWord) (e : EdgeIn) : EdgeIn :=
  match w with
  | .command v => { e with cmdValid := true, cmd := v }
  | .tickPort v => { e with rc5Tick := v.getLsbD 1, rc5In := v.getLsbD 0 }

/-- The input ports at an edge of a statement (R84). -/
def Stmt.edge (st : Stmt) : EdgeIn :=
  let e := match st.tick with
    | some p => presentOn (encode (.tick p)) EdgeIn.idle
    | none => EdgeIn.idle
  match st.cmd with
  | some i => presentOn (encode i) e
  | none => e

/-! ### Pseudo-instructions (R85) -/

/-- `TICK p`. -/
def tickStmt (p : Bool) : Stmt := { cmd := none, tick := some p }

/-- A command alone. -/
def cmdStmt (i : Instr) : Stmt := { cmd := some i, tick := none }

/-- `IDLE`. -/
def idleStmt : Stmt := { cmd := none, tick := none }

/-- `TICKS n, p`. -/
def ticks (n : Nat) (p : Bool) : List Stmt := List.replicate n (tickStmt p)

/-- `RC5IDLE n`: n ticks at logical level 0. -/
def rc5Idle (c : Config) (n : Nat) : List Stmt := ticks n (pinOf c false)

/-- `RC5FRAME w, h`: each half-bit of the word's line for h ticks (R81, R85). -/
def rc5Frame (c : Config) (w : RcWord) (h : Nat) : List Stmt :=
  (frameLevels w).flatMap fun b => ticks h (pinOf c b)

/-- `WAITTX`: a NOP, held until the port is ready. -/
def waitTx : Stmt := cmdStmt .nop

/-! ### The host that holds a command until it is accepted (R84, R190) -/

/-- What the host presents at the next edge, and the statements left after it; past the last statement it leaves the ports
idle (DESIGN CHOICE, assumption 16). A command the port does not accept is held
and retried; a tick written with `||` happens only at the first edge of its statement (R84). -/
def hostEdge (prog : List Stmt) (s : State) : EdgeIn × List Stmt :=
  match prog with
  | [] => (EdgeIn.idle, [])
  | st :: rest =>
    if st.edge.cmdValid && !cmdReady s then (st.edge, { st with tick := none } :: rest) else (st.edge, rest)

/-- Drive the block for a number of edges: the statements left and the state, or where it stopped. -/
def runHost : Nat → List Stmt → State → Host.Outcome (List Stmt × State) Fault Refusal
  | 0, prog, s => .next (prog, s)
  | k + 1, prog, s =>
    match clockEdge (hostEdge prog s).1 s with
    | .next s' => runHost k (hostEdge prog s).2 s'
    | .fault r => .fault r
    | .refused r => .refused r

/-! ### The text (R84): one statement a line, `;` starts a comment -/

/-- Split a line into words at spaces, tabs and commas, dropping a comment; the separators are the model's choice (DESIGN
CHOICE, assumption 16). -/
def wordsOf : List Char → List (List Char) → List Char → List (List Char)
  | cur, acc, [] => if cur.isEmpty then acc.reverse else (cur.reverse :: acc).reverse
  | cur, acc, ch :: rest =>
    if ch = ';' then (if cur.isEmpty then acc.reverse else (cur.reverse :: acc).reverse)
    else if ch = ' ' || ch = ',' || ch = '\t' then
      (if cur.isEmpty then wordsOf [] acc rest else wordsOf [] (cur.reverse :: acc) rest)
    else wordsOf (ch :: cur) acc rest

/-- The value of a digit in a base up to 16; a hexadecimal letter in either case (DESIGN CHOICE, assumption 16). -/
def digitOf (base : Nat) (ch : Char) : Option Nat :=
  let d :=
    if '0'.toNat ≤ ch.toNat ∧ ch.toNat ≤ '9'.toNat then ch.toNat - '0'.toNat
    else if 'a'.toNat ≤ ch.toNat ∧ ch.toNat ≤ 'f'.toNat then ch.toNat - 'a'.toNat + 10
    else if 'A'.toNat ≤ ch.toNat ∧ ch.toNat ≤ 'F'.toNat then ch.toNat - 'A'.toNat + 10
    else 16
  if d < base then some d else none

/-- The value of a run of digits, after a value already read. -/
def digitsFrom (base : Nat) : Nat → List Char → Option Nat
  | v, [] => some v
  | v, ch :: rest =>
    match digitOf base ch with
    | some d => digitsFrom base (v * base + d) rest
    | none => none

/-- A non-empty unsigned number: decimal, or hexadecimal after `0x` (R84). Counts, words and half-bit lengths are such numbers
and take no sign (DESIGN CHOICE, assumption 16). -/
def natOf : List Char → Option Nat
  | '0' :: 'x' :: ch :: rest => digitsFrom 16 0 (ch :: rest)
  | ch :: rest => digitsFrom 10 0 (ch :: rest)
  | [] => none

/-- A coordinate: a decimal number with an optional `-` sign, or a hexadecimal one (R84). R84 gives the sign with decimal numbers
and does not say whether it may stand before `0x`; here it may (DESIGN CHOICE, assumption 16). -/
def intOf : List Char → Option Int
  | '-' :: rest => (natOf rest).map fun v => -(v : Int)
  | w => (natOf w).map fun v => (v : Int)

/-- A colour `#RRGGBB` (R84). -/
def colorOf (w : List Char) : Option Color :=
  match w with
  | '#' :: rest =>
    if rest.length = 6 then
      (digitsFrom 16 0 rest).map fun v =>
        { r := BitVec.ofNat 8 (v / 65536), g := BitVec.ofNat 8 (v / 256), b := BitVec.ofNat 8 v }
    else none
  | _ => none

/-- A pin level, written 0 or 1 and nothing else (DESIGN CHOICE, assumption 16). -/
def levelOf : List Char → Option Bool
  | ['0'] => some false
  | ['1'] => some true
  | _ => none

/-- The coordinate a number stands for: `SET` encodes `x & 0xFF` (R84). -/
def coordOf (v : Int) : Int := (BitVec.ofInt 8 v).toInt

/-- A command statement's operation (R84); `WAITTX` is a NOP (R85). Mnemonics are upper case (DESIGN CHOICE, assumption 16). -/
def commandOf : List (List Char) → Option Instr
  | [['N', 'O', 'P']] => some .nop
  | [['T', 'A', 'K', 'E']] => some .take
  | [['F', 'L', 'U', 'S', 'H']] => some .flush
  | [['W', 'A', 'I', 'T', 'T', 'X']] => some .nop
  | [['C', 'L', 'E', 'A', 'R'], col] => (colorOf col).map Instr.clear
  | [['S', 'E', 'T'], x, y, col] =>
    match intOf x, intOf y, colorOf col with
    | some vx, some vy, some vc => some (.set (coordOf vx) (coordOf vy) vc)
    | _, _, _ => none
  | _ => none

/-- The statements that are no command, and the pseudo-instructions with more than one edge (R85). A line with no words is no
statement, and the word of `RC5FRAME` is taken at its low 14 bits (DESIGN CHOICE, assumption 16). -/
def tickLineOf (c : Config) : List (List Char) → Option (List Stmt)
  | [] => some []
  | [['I', 'D', 'L', 'E']] => some [idleStmt]
  | [['T', 'I', 'C', 'K'], p] => (levelOf p).map fun b => [tickStmt b]
  | [['T', 'I', 'C', 'K', 'S'], k, p] =>
    match natOf k, levelOf p with
    | some vk, some b => some (ticks vk b)
    | _, _ => none
  | [['R', 'C', '5', 'I', 'D', 'L', 'E'], k] => (natOf k).map (rc5Idle c)
  | [['R', 'C', '5', 'F', 'R', 'A', 'M', 'E'], w, h] =>
    match natOf w, natOf h with
    | some vw, some vh => some (rc5Frame c (BitVec.ofNat 14 vw) vh)
    | _, _ => none
  | _ => none

/-- Split the words of a line at `||`. -/
def splitBar : List (List Char) → List (List Char) × Option (List (List Char))
  | [] => ([], none)
  | w :: rest =>
    if w = ['|', '|'] then ([], some rest) else (w :: (splitBar rest).1, (splitBar rest).2)

/-- The statements of one line of text; none where the line is no statement (R84, R85). `||` is a word of its own, a command on
its left and a `TICK` on its right (DESIGN CHOICE for the spacing, assumption 16). -/
def assembleLine (c : Config) (line : List Char) : Option (List Stmt) :=
  match splitBar (wordsOf [] [] line) with
  | (ws, none) =>
    match commandOf ws with
    | some i => some [cmdStmt i]
    | none => tickLineOf c ws
  | (ws, some tk) =>
    match commandOf ws, tk with
    | some i, [['T', 'I', 'C', 'K'], p] => (levelOf p).map fun b => [{ cmd := some i, tick := some b }]
    | _, _ => none

/-- The statements of a text, line by line. -/
def assemble (c : Config) : List (List Char) → Option (List Stmt)
  | [] => some []
  | line :: rest =>
    match assembleLine c line, assemble c rest with
    | some a, some b => some (a ++ b)
    | _, _ => none

end Sys2Proof.Machine
end

