-- ==== Sys2Proof/Safety.lean ====
section
/-! DEFINITION. What a sound state of the block is: the ranges and relations the spec gives its registers, which reset
establishes and every edge keeps. With it, the words the claims are written in: runs of steps and of ticks, a frame's
samples, and the edge register by register as R185 writes it. -/

namespace Sys2Proof.Machine

/-- The invariant of the block. -/
structure State.Inv (s : State) : Prop where
  /-- `pb_mem` keeps its canonical form. -/
  memSorted : s.pbMem.wf
  /-- No address outside `0 .. BUF_BYTES-1` can be formed (R50). -/
  memInRange : ∀ p ∈ s.pbMem, p.1 < s.cfg.bufBytes
  /-- `pb_w` keeps its canonical form. -/
  marksSorted : s.pbW.wf
  /-- A byte whose ghost bit is set holds a value (R30). -/
  marksListed : ∀ a ∈ s.pbW, (s.pbMem.read a).isSome = true
  /-- `tx_idx` is in `0 .. HALF_BYTES-1` (R32). -/
  idxInHalf : s.tx.idx < s.cfg.halfBytes
  /-- `tx_cyc` is a cycle of the symbol being sent (R32, R142). -/
  cycInSym : s.tx.cyc < symLen s.cfg s.tx.sym
  /-- While not busy the position is at its reset value (R142). -/
  idlePosition : s.tx.busy = false → s.tx = Transmitter.initial
  /-- While busy every byte of the buffer is written (R150, R64). -/
  busyWritten : s.tx.busy = true → ∀ a < s.cfg.bufBytes, a ∈ s.pbW
  /-- A CLEAR does not hold the port during a transmission (R186). -/
  busyNoStall : s.tx.busy = true → s.clrCnt = 0
  /-- `clr_cnt` is in `0 .. CLEAR_LAT-1` (R33). -/
  stallInRange : s.clrCnt < s.cfg.clearLat
  /-- While collecting, the elapsed count has not passed the timeout (R104, R107). -/
  collectingFresh : s.dec.acc ≠ 0 → s.dec.cnt.toNat ≤ s.cfg.pulseMax
  /-- A word waiting in the mailbox begins with the canonical start bits (R105). -/
  mailboxStart : s.mbox.valid = true → s.mbox.word.extractLsb' 12 2 = startPattern
  /-- A response is "none" exactly 0x00, or has bit 7 set (R79). -/
  responseForm : s.rsp.data.getLsbD 7 = false → s.rsp.data = 0

/-! ### Runs -/

/-- A number of steps, stopping at the first fault or refusal. -/
def steps : Nat → State → Host.Outcome State Fault Refusal
  | 0, s => .next s
  | k + 1, s => andThen (step s) (steps k)

/-- The edges with the given inputs, stopping at the first fault or refusal. -/
def edges : List EdgeIn → State → Host.Outcome State Fault Refusal
  | [], s => .next s
  | e :: rest, s => andThen (clockEdge e s) (edges rest)

/-- A property of the inputs and the state before it, at each edge of a run. -/
def alongEdges (P : EdgeIn → State → Prop) : List EdgeIn → State → Prop
  | [], _ => True
  | e :: rest, s => P e s ∧ ∀ t, clockEdge e s = .next t → alongEdges P rest t

/-- The word published at an edge, if any: a reset edge processes no tick (R101, R230). -/
def publishedAt (e : EdgeIn) (s : State) : Option RcWord :=
  if e.rst then none else if e.rc5Tick then (tickDecoder s.cfg e.rc5In s.dec).2 else none

/-- None of the next `k` edges is a reset edge. -/
def State.noReset (s : State) (k : Nat) : Prop := ∀ e ∈ s.pins.take k, e.rst = false

/-- The decoder after a run of ticks with the given logical levels, and the words published, in order. -/
def decodeTicks (c : Config) : List Bool → Decoder → Decoder × List RcWord
  | [], d => (d, [])
  | b :: rest, d =>
    let t := tickDecoder c (pinOf c b) d
    let r := decodeTicks c rest t.1
    (r.1, t.2.toList ++ r.2)

/-! ### The samples of a frame whose intervals vary (R120) -/

/-- The logical levels from the mid-bit transition of bit `k` to that of bit 0, tick by tick. Between two equal bits the line
stays `a` ticks at the first bit's level and `b` at the other; between two unequal bits it stays `a` ticks (R81). -/
def frameBody (w : RcWord) (a b : Nat → Nat) : Nat → List Bool
  | 0 => []
  | k + 1 =>
    (if w.getLsbD k = w.getLsbD (k + 1) then
      List.replicate (a k) (w.getLsbD (k + 1)) ++ List.replicate (b k) (!w.getLsbD (k + 1))
    else List.replicate (a k) (w.getLsbD (k + 1))) ++ frameBody w a b k

/-- The samples from S1's mid-bit rise until `q` ticks at the idle level have followed the frame: bit 0's second half, if it
is at level 1, lasts `z` ticks. -/
def frameSamples (w : RcWord) (a b : Nat → Nat) (z q : Nat) : List Bool :=
  frameBody w a b 13 ++ (if w.getLsbD 0 then List.replicate z true else []) ++ List.replicate q false

/-- Every interval of the frame that spans one half-bit is short, every one that spans two is long (R120 (b)). -/
def intervalsFit (c : Config) (w : RcWord) (a b : Nat → Nat) (z : Nat) : Prop :=
  (∀ k < 13, if w.getLsbD k = w.getLsbD (k + 1) then
      (c.pulseMin ≤ a k ∧ a k ≤ c.pulseMid) ∧ (c.pulseMin ≤ b k ∧ b k ≤ c.pulseMid)
    else c.pulseMid < a k ∧ a k ≤ c.pulseMax) ∧
  (w.getLsbD 0 = true → c.pulseMin ≤ z ∧ z ≤ c.pulseMid)

/-! ### The edge, register by register (R185) -/

/-- The state after an edge without reset, as R185 writes it: every read is of the state before the edge. -/
def edgeByR185 (e : EdgeIn) (s : State) : State :=
  let op := acceptedCmd e s
  let t := if e.rc5Tick then tickDecoder s.cfg e.rc5In s.dec else (s.dec, none)
  { build := s.build
    dec := t.1
    mbox :=
      { valid := t.2.isSome || (s.mbox.valid && decide (op ≠ some .take))
        word := t.2.getD s.mbox.word }
    pbMem :=
      match op with
      | some (.set x y rgb) =>
        match slotOf s.cfg x y with
        | some i => (storeSlot i rgb s).pbMem
        | none => s.pbMem
      | some (.clear rgb) => (fillSlots rgb s.cfg.nPix s).pbMem
      | _ => s.pbMem
    pbW :=
      match op with
      | some (.set x y rgb) =>
        match slotOf s.cfg x y with
        | some i => (storeSlot i rgb s).pbW
        | none => s.pbW
      | some (.clear rgb) => (fillSlots rgb s.cfg.nPix s).pbW
      | _ => s.pbW
    tx := if op = some .flush then startTx else if s.tx.busy then advance s.cfg s.tx else s.tx
    clrCnt :=
      match op with
      | some (.clear _) => s.cfg.clearLat - 1
      | _ => if s.clrCnt ≠ 0 then s.clrCnt - 1 else s.clrCnt
    rsp :=
      { valid := decide (op = some .take)
        data := if op = some .take then takeData s.cfg s.mbox else s.rsp.data }
    cmdErr :=
      match op with
      | some i => s.cmdErr || isReserved i
      | none => s.cmdErr
    pins := s.pins }

end Sys2Proof.Machine
end

