-- ==== Sys2Proof/Certificates/Slice0/Obligations.lean ====
section
/-! DEFINITION. The statements about the model, one `def Obligations.<Name> : Prop` each. Every one holds for every admitted
configuration: a state carries its own. -/

open Sys2Proof Sys2Proof.Machine

/-! ## Encoding -/

/-- Decode and encode agree, for every operation an encoding admits, with every operand at every value. -/
def Obligations.DecodeEncodeRoundTrip : Prop := ∀ i : Instr, i.wf = true → decode (encode i) = .ok i

/-- Encoding a decoded command word gives the word back with its unused bits cleared: those of format N (R72), format S
(R73) and format C (R74). -/
def Obligations.EncodeDecodeClearsUnusedBits : Prop :=
  ∀ w : CmdWord, encode (decodeCmd w) = .command
    (w &&& (if opcodeField w = 2 then 0x0FFFFFFFFFFF#48
            else if opcodeField w = 3 then 0x0FFFFFF0000F#48
            else 0x00000000000F#48))

/-- R76: a command's unused bits do not affect its operation. Two words that differ at most in bits 47:44 (for SET), in bits
47:44 and 19:4 (for CLEAR), or in bits 47:4 (for every other opcode) are the same operation. -/
def Obligations.UnusedBitsAreIgnored : Prop :=
  ∀ v w : CmdWord, opcodeField v = opcodeField w →
    (∀ i, (4 ≤ i ∧ i < 20 → opcodeField w = 2) → (20 ≤ i ∧ i < 44 → opcodeField w = 2 ∨ opcodeField w = 3) →
      i < 44 → v.getLsbD i = w.getLsbD i) →
    decodeCmd v = decodeCmd w

/-- Every 48-bit value decodes to a well-formed operation of its own opcode, so the command decoder is total (R70, R71). -/
def Obligations.EveryWordDecodesByItsOpcode : Prop :=
  ∀ w : CmdWord, (decodeCmd w).wf = true ∧ opcodeOf (decodeCmd w) = some (opcodeField w)

/-- Words written out bit by bit from R71 to R74 and R78 decode to the operations they stand for. -/
def Obligations.WrittenWordsDecode : Prop :=
  decode (.command 0x000000000000#48) = .ok .nop ∧
  decode (.command 0x000000000001#48) = .ok .take ∧
  decode (.command 0x0FF000000002#48) = .ok (.set 0 0 { r := 0xFF, g := 0, b := 0 }) ∧
  decode (.command 0x0FFFFFF807F2#48) = .ok (.set 127 (-128) { r := 0xFF, g := 0xFF, b := 0xFF }) ∧
  decode (.command 0x010203000003#48) = .ok (.clear { r := 0x10, g := 0x20, b := 0x30 }) ∧
  decode (.command 0x000000000004#48) = .ok .flush ∧
  decode (.command 0xFFFFFFFFFFFF#48) = .ok .reservedF ∧
  decode (.tickPort 0b11#2) = .ok (.tick true) ∧
  decode (.tickPort 0b10#2) = .ok (.tick false) ∧
  decode (.tickPort 0b01#2) = .error .noTick

/-- The assembler's words, as R84 computes them: for every SET and CLEAR statement, the number on the command port. -/
def Obligations.AssembledWordsFollowTheTable : Prop :=
  (∀ (x y : Int) (c : Color), (cmdStmt (.set x y c)).edge.cmdValid = true ∧
    ((cmdStmt (.set x y c)).edge.cmd.toNat : Int) =
      2 + (x % 256) * 2 ^ 4 + (y % 256) * 2 ^ 12 + (c.r.toNat * 65536 + c.g.toNat * 256 + c.b.toNat) * 2 ^ 20) ∧
  (∀ c : Color, (cmdStmt (.clear c)).edge.cmdValid = true ∧
    (cmdStmt (.clear c)).edge.cmd.toNat =
      3 + (c.r.toNat * 65536 + c.g.toNat * 256 + c.b.toNat) * 2 ^ 20) ∧
  (cmdStmt .nop).edge.cmd = 0 ∧ (cmdStmt .take).edge.cmd = 1 ∧ (cmdStmt .flush).edge.cmd = 4

/-! ## Configuration -/

/-- R148's default symbol is the whole number of cycles nearest to 500 ns, a tie rounded up; and the admitted and refused
clocks of its table. -/
def Obligations.DefaultTimingIsAdmittedOrRefused : Prop :=
  (∀ f : Nat, 500 * f < Config.defaultSym f * 10 ^ 9 + 5 * 10 ^ 8 ∧
    Config.defaultSym f * 10 ^ 9 ≤ 500 * f + 5 * 10 ^ 8) ∧
  (∀ f ∈ [16000000, 8000000, 20000000, 2000000],
    (Config.ofRates 4 { k0 := .G, k1 := .R, k2 := .B } f 4500).refusedBy = none) ∧
  (∀ f ∈ [3000000, 1000000],
    (Config.ofRates 4 { k0 := .G, k1 := .R, k2 := .B } f 4500).refusedBy = some .w3)

/-- A configuration is admitted exactly when no check refuses it (R13, R204). -/
def Obligations.AdmissionIsAllEightChecks : Prop :=
  ∀ c : Config, c.refusedBy = none ↔
    (c.n % 2 = 0 ∧ 2 ≤ c.n ∧ c.n ≤ 126) ∧
    (1 ≤ c.symA ∧ 1 ≤ c.symB ∧ 1 ≤ c.symC) ∧
    (c.lowMinNs * c.fClkHz ≤ c.symC * 1000000000 ∧ c.symC * 1000000000 ≤ c.lowMaxNs * c.fClkHz) ∧
    (1 ≤ c.pulseMin ∧ c.pulseMin < c.pulseMid ∧ c.pulseMid < c.pulseMax ∧ c.pulseMax ≤ 254) ∧
    c.cmd6SrcBit ≤ 13 ∧
    (∀ ch : Channel, ch = c.channelOrder.k0 ∨ ch = c.channelOrder.k1 ∨ ch = c.channelOrder.k2) ∧
    1 ≤ c.clearLat ∧
    (1 ≤ c.fClkHz ∧ 1 ≤ c.fTickHz)

/-! ## Reset -/

/-- The reset values of R40, in every admitted configuration. `pb_mem` is UNSPECIFIED there: that no byte of it has a value
(and that nothing stands on the input ports) is the model's choice, assumptions 2 and 3. -/
def Obligations.ResetStateHoldsResetValues : Prop :=
  ∀ b : Build,
    (State.resetOf b).dec.acc = 0 ∧ (State.resetOf b).dec.lvl = false ∧ (State.resetOf b).dec.phase = .mid ∧
    (State.resetOf b).dec.cnt.toNat = 255 ∧
    (State.resetOf b).mbox.valid = false ∧ (State.resetOf b).mbox.word = 0 ∧
    (∀ a, a ∉ (State.resetOf b).pbW) ∧
    (State.resetOf b).tx.busy = false ∧ (State.resetOf b).tx.half = 0 ∧ (State.resetOf b).tx.idx = 0 ∧
    (State.resetOf b).tx.bit = 7 ∧ (State.resetOf b).tx.sym = .A ∧ (State.resetOf b).tx.cyc = 0 ∧
    (State.resetOf b).clrCnt = 0 ∧
    (State.resetOf b).rsp.valid = false ∧ (State.resetOf b).rsp.data = 0 ∧
    (State.resetOf b).cmdErr = false ∧
    (outputs (State.resetOf b)).wsOut0 = some false ∧ (outputs (State.resetOf b)).wsOut1 = some false

/-- R230: at an edge with `rst = 1`, whatever else the ports carry, every register takes its reset value, `pb_w` is cleared
and `pb_mem` keeps its contents. -/
def Obligations.ResetEdgeMasksEverything : Prop :=
  ∀ (e : EdgeIn) (rest : List EdgeIn) (s : State), s.pins = e :: rest → e.rst = true →
    step s = .next { State.resetOf s.build with pbMem := s.pbMem, pins := rest }

/-! ## Steps -/

/-- A step runs the decoded instruction. A command presented alone to a ready port at an edge without reset is exec of what its
word decodes to; a tick-port event alone is exec of what it decodes to, whether or not the port is ready. That the inputs are
a list in State (log entry 2), and that the operation runs on the state after `background`, where R185 reads every register
before the edge (log entry 8, DEDUCED), are the model's own; EdgeIsTheSimultaneousMerge says that the two agree. -/
def Obligations.StepRunsTheDecodedInstruction : Prop :=
  (∀ (w : CmdWord) (i : Instr) (rest : List EdgeIn) (s : State),
    s.pins = EdgeIn.ofPortWord (.command w) :: rest → cmdReady s = true → decode (.command w) = .ok i →
    step s = exec i (background (s.withPins rest))) ∧
  (∀ (v : BitVec 2) (i : Instr) (rest : List EdgeIn) (s : State),
    s.pins = EdgeIn.ofPortWord (.tickPort v) :: rest → decode (.tickPort v) = .ok i →
    step s = exec i (background (s.withPins rest)))

/-- A command and a tick at one edge both take effect. How the model has them do so is its own choice, not the spec's words:
the accepted command runs first and the tick on the state it leaves (log entry 8, DEDUCED), and a command that stops stops
the whole edge, its tick included (log entry 9, DEDUCED). -/
def Obligations.StepRunsCommandThenTick : Prop :=
  ∀ (e : EdgeIn) (rest : List EdgeIn) (s : State),
    s.pins = e :: rest → e.rst = false → e.cmdValid = true → cmdReady s = true → e.rc5Tick = true →
    (∀ t, exec (decodeCmd e.cmd) (background (s.withPins rest)) = .next t → step s = exec (.tick e.rc5In) t) ∧
    (∀ f, exec (decodeCmd e.cmd) (background (s.withPins rest)) = .fault f → step s = .fault f)

/-- An edge without reset that carries no operation (no command accepted, no tick): `rsp_valid` falls, the sequencer steps while
busy, `clr_cnt` counts down to 0, and nothing else changes (R185, R34, R142, R173). The first clause says that the helper
`background` is exactly this; that an edge with an operation does it first and then runs the operation is the model's own
split of the edge (log entry 8, DEDUCED). -/
def Obligations.BackgroundOfAnEdge : Prop :=
  (∀ s : State, background s =
    { s with
      rsp := { s.rsp with valid := false }
      tx := if s.tx.busy then advance s.cfg s.tx else s.tx
      clrCnt := s.clrCnt - 1 }) ∧
  ∀ (e : EdgeIn) (s : State), e.rst = false → acceptedCmd e s = none → e.rc5Tick = false →
    clockEdge e s = .next
      { s with
        rsp := { s.rsp with valid := false }
        tx := if s.tx.busy then advance s.cfg s.tx else s.tx
        clrCnt := s.clrCnt - 1 }

/-- R187: a command that is not accepted has no effect at all: what is presented to a port that is not ready makes no
difference. -/
def Obligations.UnacceptedCommandHasNoEffect : Prop :=
  ∀ (e : EdgeIn) (w : CmdWord) (valid : Bool) (s : State), cmdReady s = false →
    clockEdge { e with cmdValid := valid, cmd := w } s = clockEdge { e with cmdValid := false, cmd := 0 } s

/-- R185: the edge that runs command and tick in turn is the edge that reads every register before it and writes them all
together, unless a FLUSH of unwritten bytes is accepted, at which the model stops. -/
def Obligations.EdgeIsTheSimultaneousMerge : Prop :=
  ∀ (e : EdgeIn) (s : State), e.rst = false →
    (acceptedCmd e s = some .flush → ∀ a < s.cfg.bufBytes, a ∈ s.pbW) →
    clockEdge e s = .next (edgeByR185 e s)

/-- The only thing that stops the model is an accepted FLUSH of a buffer with an unwritten byte, and it names the lowest (R150,
and the first row of R203). That nothing else stops rests on two choices of the model: the optional fault of R203's second
row, `ReservedOpcode`, is not raised (log entry 5, DESIGN CHOICE), and no command word is refused for its unused bits (log
entry 6, DESIGN CHOICE). -/
def Obligations.OnlyUnwrittenFlushStops : Prop :=
  ∀ s : State,
    (∀ f, step s = .fault f → ∃ a, f = .unwrittenPixel a ∧ (nextInputs s).rst = false ∧
      acceptedCmd (nextInputs s) s = some .flush ∧ a < s.cfg.bufBytes ∧ a ∉ s.pbW ∧ ∀ b < a, b ∈ s.pbW) ∧
    (∀ r, step s ≠ .refused r)

/-- With no ticks, no commands and no transmission, an edge changes no state (R216). That it also asks for no CLEAR stall and no
response showing is not in the words of R216: it is the model's reading of R216 beside R185, by which `clr_cnt` counts down
and `rsp_valid` falls at such an edge (log entry 15, DEDUCED). -/
def Obligations.QuietEdgeChangesNothing : Prop :=
  ∀ (e : EdgeIn) (rest : List EdgeIn) (s : State), s.pins = e :: rest → e.rst = false → e.cmdValid = false →
    e.rc5Tick = false → s.tx.busy = false → s.clrCnt = 0 → s.rsp.valid = false →
    step s = .next { s with pins := rest }

/-! ## Commands -/

/-- R188: NOP changes no state, and an edge that accepts a NOP is an edge with no command. -/
def Obligations.NopChangesNothing : Prop :=
  (∀ s : State, exec .nop s = .next s) ∧
  (∀ (e : EdgeIn) (s : State), decodeCmd e.cmd = .nop → clockEdge e s = clockEdge { e with cmdValid := false } s)

/-- R189: each of the reserved opcodes completes, sets `cmd_err` and changes nothing else. -/
def Obligations.ReservedOpcodesOnlySetCmdErr : Prop :=
  ∀ i ∈ [Instr.reserved5, .reserved6, .reserved7, .reserved8, .reserved9, .reservedA, .reservedB, .reservedC,
      .reservedD, .reservedE, .reservedF],
    ∀ s : State, exec i s = .next { s with cmdErr := true }

/-- R117: TAKE completes; it answers `{1, reduce(mbox_word)}` from a full mailbox and 0x00 from an empty one, empties the
mailbox without clearing the word, and changes nothing else. -/
def Obligations.TakeRespondsAndEmptiesMailbox : Prop :=
  ∀ s : State, ∃ t : State, exec .take s = .next t ∧
    t.rsp.valid = true ∧
    t.rsp.data.toNat = (if s.mbox.valid then
      128 + s.mbox.word.toNat % 64 + (if s.mbox.word.getLsbD s.cfg.cmd6SrcBit then 0 else 64) else 0) ∧
    t.mbox.valid = false ∧ t.mbox.word = s.mbox.word ∧
    t = { s with rsp := t.rsp, mbox := t.mbox }

/-- A word is delivered exactly once (R124), over any run of edges. A publish leaves its word in the mailbox; the first TAKE
accepted after it, with no publish and no reset in between, returns that word. And after any TAKE, a later TAKE with no
publish from the first one's edge on returns 0x00, whatever else the edges carry in between. -/
def Obligations.TakeDeliversAWordOnce : Prop :=
  (∀ (e f : EdgeIn) (es : List EdgeIn) (w : RcWord) (s t u v : State),
    publishedAt e s = some w → clockEdge e s = .next t →
    alongEdges (fun e s => e.rst = false ∧ publishedAt e s = none ∧ acceptedCmd e s ≠ some .take) es t →
    edges es t = .next u → f.rst = false → acceptedCmd f u = some .take → clockEdge f u = .next v →
    t.mbox = { valid := true, word := w } ∧ v.rsp.valid = true ∧
      v.rsp.data.toNat = 128 + (reduce s.cfg w).toNat ∧ (publishedAt f u = none → v.mbox.valid = false)) ∧
  ∀ (e f : EdgeIn) (es : List EdgeIn) (s t u v : State),
    e.rst = false → acceptedCmd e s = some .take → clockEdge e s = .next t → publishedAt e s = none →
    alongEdges (fun e s => publishedAt e s = none) es t → edges es t = .next u →
    f.rst = false → acceptedCmd f u = some .take → clockEdge f u = .next v →
    v.rsp.valid = true ∧ v.rsp.data = 0x00

/-- SET at an in-range coordinate completes: byte k of the coordinate's slot holds channel `CHANNEL_ORDER[k]`, its ghost
bits are set, every byte and ghost bit outside those three is unchanged, and so is every register (R170, R171, R52). -/
def Obligations.SetWritesItsSlotAlone : Prop :=
  ∀ (x y : Int) (rgb : Color) (s : State), 0 ≤ x → x < s.cfg.n → 0 ≤ y → y < s.cfg.n →
    ∃ t : State, exec (.set x y rgb) s = .next t ∧
      (∀ k < 3, t.pbMem.read (3 * slot s.cfg x.toNat y.toNat + k) =
        some (channelOf rgb (orderAt s.cfg.channelOrder k))) ∧
      (∀ a, a < 3 * slot s.cfg x.toNat y.toNat ∨ 3 * slot s.cfg x.toNat y.toNat + 3 ≤ a →
        t.pbMem.read a = s.pbMem.read a) ∧
      (∀ a, a ∈ t.pbW ↔
        (3 * slot s.cfg x.toNat y.toNat ≤ a ∧ a < 3 * slot s.cfg x.toNat y.toNat + 3) ∨ a ∈ s.pbW) ∧
      t = { s with pbMem := t.pbMem, pbW := t.pbW }

/-- R174: for a SET with x or y outside [0, N), the state after the accepting edge has every `pb_mem` byte and every `pb_w`
bit of the state before; the command's whole effect is that of an edge with no command, at which `rsp_valid` goes to 0. The
operation itself completes and changes nothing. -/
def Obligations.OutOfRangeSetLeavesThePixels : Prop :=
  ∀ (x y : Int) (rgb : Color) (s : State), ¬((0 ≤ x ∧ x < s.cfg.n) ∧ (0 ≤ y ∧ y < s.cfg.n)) →
    exec (.set x y rgb) s = .next s ∧
    ∀ e : EdgeIn, e.rst = false → acceptedCmd e s = some (.set x y rgb) →
      ∃ t : State, clockEdge e s = .next t ∧ t.pbMem = s.pbMem ∧ t.pbW = s.pbW ∧ t.rsp.valid = false ∧
        clockEdge { e with cmdValid := false } s = .next t

/-- Two SETs of one coordinate: the later one wins, so that the first leaves no trace (R170; R62's idempotence is the case
of equal colours). -/
def Obligations.LaterSetWins : Prop :=
  ∀ (x y : Int) (c1 c2 : Color) (s t : State), s.Inv → exec (.set x y c1) s = .next t →
    exec (.set x y c2) t = exec (.set x y c2) s

/-- CLEAR completes: every slot holds the colour in wiring order, every ghost bit of the buffer is set, `clr_cnt` becomes
`CLEAR_LAT - 1`; no byte outside the buffer and no other register changes (R172). -/
def Obligations.ClearFillsEverySlot : Prop :=
  ∀ (rgb : Color) (s : State), ∃ t : State, exec (.clear rgb) s = .next t ∧
    (∀ i < s.cfg.n * s.cfg.n, ∀ k < 3, t.pbMem.read (3 * i + k) =
      some (channelOf rgb (orderAt s.cfg.channelOrder k))) ∧
    (∀ a, s.cfg.bufBytes ≤ a → t.pbMem.read a = s.pbMem.read a) ∧
    (∀ a, a ∈ t.pbW ↔ a < s.cfg.bufBytes ∨ a ∈ s.pbW) ∧
    t.clrCnt = s.cfg.clearLat - 1 ∧
    t = { s with pbMem := t.pbMem, pbW := t.pbW, clrCnt := t.clrCnt }

/-- R173: after a CLEAR is accepted the port stays unready for `CLEAR_LAT - 1` edges and is then ready, so that the next
command is accepted at edge `k + CLEAR_LAT` at the earliest. -/
def Obligations.ClearHoldsThePort : Prop :=
  ∀ (rgb : Color) (s : State) (m : Nat), acceptedCmd (nextInputs s) s = some (.clear rgb) →
    s.noReset (m + 1) → m < s.cfg.clearLat →
    ∃ t : State, steps (m + 1) s = .next t ∧ (cmdReady t = true ↔ m + 1 = s.cfg.clearLat)

/-- FLUSH of a wholly written buffer completes: the transmitter is busy at the first cycle of half 0, and nothing else
changes (R141). -/
def Obligations.FlushStartsTheTransmission : Prop :=
  ∀ s : State, (∀ a < s.cfg.bufBytes, a ∈ s.pbW) →
    exec .flush s = .next { s with tx := { busy := true, half := 0, idx := 0, bit := 7, sym := .A, cyc := 0 } }

/-- R150: a FLUSH while some byte has not been written since reset stops, with the lowest such byte. -/
def Obligations.FlushOfUnwrittenByteFaults : Prop :=
  ∀ (s : State) (a : Nat), a < s.cfg.bufBytes → a ∉ s.pbW → (∀ b < a, b ∈ s.pbW) →
    exec .flush s = .fault (.unwrittenPixel a)

/-! ## The decoder -/

/-- TICK completes in every state and changes the decoder's registers and, when it publishes, the mailbox; the level
register takes the sampled logical level. -/
def Obligations.TickChangesDecoderAndMailboxAlone : Prop :=
  ∀ (p : Bool) (s : State), ∃ t : State, exec (.tick p) s = .next t ∧
    t.dec.lvl = (p ^^ s.cfg.rc5Invert) ∧
    (t.mbox = s.mbox ∨ t.mbox = { valid := true, word := s.dec.acc.extractLsb' 0 14 }) ∧
    t = { s with dec := t.dec, mbox := t.mbox }

/-- A tick that is neither an edge nor a timeout changes the counter alone: it moves up by one and stays at 255 (R103,
R106). -/
def Obligations.QuietTickOnlyCounts : Prop :=
  ∀ (p : Bool) (s : State), (p ^^ s.cfg.rc5Invert) = s.dec.lvl → min (s.dec.cnt.toNat + 1) 255 ≤ s.cfg.pulseMax →
    exec (.tick p) s =
      .next { s with dec := { s.dec with cnt := BitVec.ofNat 8 (min (s.dec.cnt.toNat + 1) 255) } }

/-- R104: a timeout at a tick that is no edge empties the accumulator, and publishes its 14 bits exactly when the validator
accepts them. -/
def Obligations.TimeoutPublishesOrDiscards : Prop :=
  ∀ (p : Bool) (s : State), (p ^^ s.cfg.rc5Invert) = s.dec.lvl → s.cfg.pulseMax < min (s.dec.cnt.toNat + 1) 255 →
    exec (.tick p) s = .next
      { s with
        dec := { s.dec with acc := 0, cnt := BitVec.ofNat 8 (min (s.dec.cnt.toNat + 1) 255) }
        mbox := if s.dec.acc.toNat / 2 ^ 12 = 3 then { valid := true, word := s.dec.acc.extractLsb' 0 14 } else s.mbox }

/-- A timeout and an edge at one tick: the timeout runs first, so the edge meets an empty accumulator and starts a new word
(R104, R109). -/
def Obligations.TimeoutRunsBeforeTheEdge : Prop :=
  ∀ (p : Bool) (s : State), (p ^^ s.cfg.rc5Invert) ≠ s.dec.lvl → s.cfg.pulseMax < min (s.dec.cnt.toNat + 1) 255 →
    exec (.tick p) s = .next
      { s with
        dec := { acc := if p ^^ s.cfg.rc5Invert then 1 else 0, lvl := p ^^ s.cfg.rc5Invert, phase := .mid, cnt := 0 }
        mbox := if s.dec.acc.toNat / 2 ^ 12 = 3 then { valid := true, word := s.dec.acc.extractLsb' 0 14 } else s.mbox }

/-- R108: an edge before the minimum valid interval discards the word in progress and starts nothing. -/
def Obligations.GlitchDiscardsTheWord : Prop :=
  ∀ (p : Bool) (s : State), (p ^^ s.cfg.rc5Invert) ≠ s.dec.lvl → min (s.dec.cnt.toNat + 1) 255 < s.cfg.pulseMin →
    exec (.tick p) s =
      .next { s with dec := { acc := 0, lvl := p ^^ s.cfg.rc5Invert, phase := s.dec.phase, cnt := 0 } }

/-- R109: an edge while idle, at least `PULSE_MIN` ticks after the one before, loads the level as the first bit. -/
def Obligations.IdleEdgeStartsAWord : Prop :=
  ∀ (p : Bool) (s : State), (p ^^ s.cfg.rc5Invert) ≠ s.dec.lvl → s.dec.acc = 0 →
    s.cfg.pulseMin ≤ min (s.dec.cnt.toNat + 1) 255 →
    exec (.tick p) s = .next
      { s with
        dec := { acc := if p ^^ s.cfg.rc5Invert then 1 else 0, lvl := p ^^ s.cfg.rc5Invert, phase := .mid, cnt := 0 } }

/-- R110: a short interval after a mid-bit transition is a boundary transition and shifts no bit. -/
def Obligations.ShortAfterMidIsABoundary : Prop :=
  ∀ (p : Bool) (s : State), (p ^^ s.cfg.rc5Invert) ≠ s.dec.lvl → s.dec.acc ≠ 0 → s.dec.phase = .mid →
    s.cfg.pulseMin ≤ min (s.dec.cnt.toNat + 1) 255 → min (s.dec.cnt.toNat + 1) 255 ≤ s.cfg.pulseMid →
    exec (.tick p) s =
      .next { s with dec := { acc := s.dec.acc, lvl := p ^^ s.cfg.rc5Invert, phase := .bnd, cnt := 0 } }

/-- R111: a short interval after a boundary transition is a mid-bit transition and shifts the new level in. -/
def Obligations.ShortAfterBoundaryShifts : Prop :=
  ∀ (p : Bool) (s : State), (p ^^ s.cfg.rc5Invert) ≠ s.dec.lvl → s.dec.acc ≠ 0 → s.dec.phase = .bnd →
    s.cfg.pulseMin ≤ min (s.dec.cnt.toNat + 1) 255 → min (s.dec.cnt.toNat + 1) 255 ≤ s.cfg.pulseMid →
    exec (.tick p) s = .next
      { s with
        dec :=
          { acc := shiftIn s.dec.acc (p ^^ s.cfg.rc5Invert), lvl := p ^^ s.cfg.rc5Invert, phase := .mid, cnt := 0 } }

/-- R112: a long interval after a mid-bit transition is a mid-bit transition and shifts the new level in; the phase stays
MID. -/
def Obligations.LongAfterMidShifts : Prop :=
  ∀ (p : Bool) (s : State), (p ^^ s.cfg.rc5Invert) ≠ s.dec.lvl → s.dec.acc ≠ 0 → s.dec.phase = .mid →
    s.cfg.pulseMid < min (s.dec.cnt.toNat + 1) 255 → min (s.dec.cnt.toNat + 1) 255 ≤ s.cfg.pulseMax →
    exec (.tick p) s = .next
      { s with
        dec :=
          { acc := shiftIn s.dec.acc (p ^^ s.cfg.rc5Invert), lvl := p ^^ s.cfg.rc5Invert, phase := .mid, cnt := 0 } }

/-- R113: a long interval after a boundary transition is malformed: the word is discarded and the edge starts no new one. -/
def Obligations.LongAfterBoundaryIsMalformed : Prop :=
  ∀ (p : Bool) (s : State), (p ^^ s.cfg.rc5Invert) ≠ s.dec.lvl → s.dec.acc ≠ 0 → s.dec.phase = .bnd →
    s.cfg.pulseMid < min (s.dec.cnt.toNat + 1) 255 → min (s.dec.cnt.toNat + 1) 255 ≤ s.cfg.pulseMax →
    exec (.tick p) s =
      .next { s with dec := { acc := 0, lvl := p ^^ s.cfg.rc5Invert, phase := .bnd, cnt := 0 } }

/-- R114: while the overflow guard is clear the new bit enters at bit 0 and no bit is lost; a 15th bit sets the guard; with
the guard set nothing moves, and only a glitch, a malformed edge or a timeout clears the accumulator. -/
def Obligations.ShifterNeverLosesABit : Prop :=
  (∀ (a : AccWord) (b : Bool), a.toNat < 2 ^ 14 → (shiftIn a b).toNat = 2 * a.toNat + b.toNat) ∧
  (∀ (a : AccWord) (b : Bool), 2 ^ 13 ≤ a.toNat → 2 ^ 14 ≤ (shiftIn a b).toNat) ∧
  (∀ (a : AccWord) (b : Bool), 2 ^ 14 ≤ a.toNat → shiftIn a b = a) ∧
  (∀ (c : Config) (p : Bool) (d : Decoder), 2 ^ 14 ≤ d.acc.toNat →
    (tickDecoder c p d).1.acc = d.acc ∨
    ((tickDecoder c p d).1.acc.toNat ≤ 1 ∧
      (c.pulseMax < (satInc d.cnt).toNat ∨
        (inputStage c p ≠ d.lvl ∧
          (classify c (satInc d.cnt).toNat d.acc d.phase = .glitch ∨
            classify c (satInc d.cnt).toNat d.acc d.phase = .malformed)))))

/-- R82: both forms of the reduced command; it lies in 0 .. 127, and its source bit is bit 7 by default. -/
def Obligations.ReducedCommandFormula : Prop :=
  (∀ (c : Config) (w : RcWord),
    (∀ i < 6, (reduce c w).getLsbD i = w.getLsbD i) ∧
    (reduce c w).getLsbD 6 = !w.getLsbD c.cmd6SrcBit ∧
    (reduce c w).toNat = (w &&& 0x3F).toNat + (1 - (w.getLsbD c.cmd6SrcBit).toNat) * 2 ^ 6 ∧
    (reduce c w).toNat ≤ 127) ∧
  ∀ (n : Nat) (o : ChannelOrder) (f g : Nat), (Config.ofRates n o f g).cmd6SrcBit = 7

/-- R119: the mailbox and the response after any edge without reset: a TAKE answers from the mailbox before the edge, and a
publish at its edge stays for the next TAKE. -/
def Obligations.TakeAndPublishMerge : Prop :=
  ∀ (e : EdgeIn) (s t : State), e.rst = false → clockEdge e s = .next t →
    (acceptedCmd e s = some .take →
      t.rsp.data.toNat = if s.mbox.valid then 128 + (reduce s.cfg s.mbox.word).toNat else 0) ∧
    (∀ w, e.rc5Tick = true → (tickDecoder s.cfg e.rc5In s.dec).2 = some w → t.mbox = { valid := true, word := w }) ∧
    (e.rc5Tick = false ∨ (tickDecoder s.cfg e.rc5In s.dec).2 = none →
      t.mbox.word = s.mbox.word ∧
      t.mbox.valid = if acceptedCmd e s = some .take then false else s.mbox.valid)

/-- R191: `rsp_valid` is 1 exactly after an edge that accepted a TAKE, with that TAKE's response in `rsp_data`; at every other
edge without reset `rsp_data` keeps the last response. -/
def Obligations.ResponseShowsForOneCycle : Prop :=
  ∀ (e : EdgeIn) (s t : State), clockEdge e s = .next t →
    (t.rsp.valid = true ↔ e.rst = false ∧ acceptedCmd e s = some .take) ∧
    (e.rst = false → acceptedCmd e s = some .take →
      t.rsp.data.toNat = if s.mbox.valid then 128 + (reduce s.cfg s.mbox.word).toNat else 0) ∧
    (e.rst = false → acceptedCmd e s ≠ some .take → t.rsp.data = s.rsp.data)

/-- A quiet line: after 255 or more ticks at the level already held, `cnt` is 255 and stays there, the decoder is idle, and
the one word published, if any, is the one it was collecting (R216, R103, R104). -/
def Obligations.QuietLineSettles : Prop :=
  ∀ (b : Build) (d : Decoder) (k : Nat), 255 ≤ k →
    decodeTicks b.cfg (List.replicate k d.lvl) d =
      ({ d with acc := 0, cnt := 255 },
        if d.acc.toNat / 2 ^ 12 = 3 then [d.acc.extractLsb' 0 14] else [])

/-- R120 and R121: a frame with `W[13] = 1` whose intervals fit the bands, met by an idle decoder (or after a timeout),
publishes W if `W[12] = 1` and nothing otherwise, at the tick `PULSE_MAX + 1` after its last edge; nothing else is published
but what the first edge's timeout publishes of an earlier word. -/
def Obligations.FrameIsDecoded : Prop :=
  ∀ (b : Build) (w : RcWord) (x y : Nat → Nat) (z : Nat) (d : Decoder),
    w.getLsbD 13 = true → intervalsFit b.cfg w x y z → d.lvl = false →
    ((d.acc = 0 ∧ b.cfg.pulseMin ≤ min (d.cnt.toNat + 1) 255) ∨ b.cfg.pulseMax < min (d.cnt.toNat + 1) 255) →
    let r := decodeTicks b.cfg (frameSamples w x y z (b.cfg.pulseMax + 1)) d
    r.2 = (tickDecoder b.cfg (pinOf b.cfg true) d).2.toList ∧
    tickDecoder b.cfg (pinOf b.cfg false) r.1 =
      ({ r.1 with acc := 0, cnt := BitVec.ofNat 8 (b.cfg.pulseMax + 1) },
        if w.getLsbD 12 then some w else none)

/-- The host's frame `RC5FRAME W, H ; RC5IDLE PULSE_MAX + 2`, run step by step from any state with an idle decoder at level
0, ends with W in the mailbox if its start bits are canonical, for every H that R120 admits, whatever the transmitter
does meanwhile (R85, R120, R123). -/
def Obligations.FrameReachesTheMailbox : Prop :=
  ∀ (w : RcWord) (h : Nat) (s : State), w.extractLsb' 12 2 = 0b11#2 → s.dec.acc = 0 → s.dec.lvl = false →
    s.cfg.pulseMin ≤ h → h ≤ s.cfg.pulseMid → s.cfg.pulseMid < 2 * h → 2 * h ≤ s.cfg.pulseMax →
    s.pins = (rc5Frame s.cfg w h ++ rc5Idle s.cfg (s.cfg.pulseMax + 2)).map Stmt.edge →
    ∃ t : State, steps (28 * h + s.cfg.pulseMax + 2) s = .next t ∧
      t.mbox = { valid := true, word := w } ∧ t.dec.acc = 0 ∧ t.pbMem = s.pbMem

/-- R236: two publishes are at least `G` ticks apart: after a tick that publishes, no run of fewer than `G` ticks publishes,
whatever the line does. -/
def Obligations.PublishesAreGTicksApart : Prop :=
  ∀ (b : Build) (d : Decoder) (p : Bool) (ps : List Bool) (w : RcWord),
    (tickDecoder b.cfg p d).2 = some w → ps.length < b.cfg.publishGap →
    (decodeTicks b.cfg ps (tickDecoder b.cfg p d).1).2 = []

/-- Only a tick or a reset changes the decoder, and what a tick makes of it depends on nothing else in the block: two states
with the same configuration and decoder, at edges with the same tick, keep the same decoder (R39, R123). -/
def Obligations.DecoderDependsOnTicksAlone : Prop :=
  ∀ (e1 e2 : EdgeIn) (s1 s2 t1 t2 : State), e1.rst = false → e2.rst = false → e1.rc5Tick = e2.rc5Tick →
    e1.rc5In = e2.rc5In → s1.build = s2.build → s1.dec = s2.dec →
    clockEdge e1 s1 = .next t1 → clockEdge e2 s2 = .next t2 →
    t1.dec = t2.dec ∧ (e1.rc5Tick = false → t1.dec = s1.dec)

/-- R185's output equations: each output port is the register or condition it is named after (R41), and the waveform lines are
those of R144. So the decoder's registers show at no output, and neither does the mailbox's word, whether one waits or not
(R39). -/
def Obligations.DecoderIsInvisible : Prop :=
  (∀ s : State,
    ((outputs s).cmdReady = true ↔ s.tx.busy = false ∧ s.clrCnt = 0) ∧
    (outputs s).rspValid = s.rsp.valid ∧ (outputs s).rspData = s.rsp.data ∧
    (outputs s).rc5Avail = s.mbox.valid ∧ (outputs s).txBusy = s.tx.busy ∧ (outputs s).cmdErr = s.cmdErr ∧
    (outputs s).wsOut0 = wsOut s 0 ∧ (outputs s).wsOut1 = wsOut s 1) ∧
  ∀ (s : State) (d : Decoder) (w : RcWord),
    outputs (s.withDec d) = outputs s ∧ outputs (s.withMbox { s.mbox with word := w }) = outputs s

/-! ## The transmitter and the pixel buffer -/

/-- R144: outside a transmission both lines are 0; during one the line not selected is 0 and the selected one shows symbol A
as 1, symbol B as bit `tx_bit` of byte `tx_half*HALF_BYTES + tx_idx`, symbol C as 0 (R143). -/
def Obligations.LinesShowTheSelectedSymbol : Prop :=
  ∀ (s : State) (h : Fin 2),
    (s.tx.busy = false → wsOut s h = some false) ∧
    (s.tx.half ≠ h → wsOut s h = some false) ∧
    (s.tx.busy = true → s.tx.half = h → s.tx.sym = .A → wsOut s h = some true) ∧
    (s.tx.busy = true → s.tx.half = h → s.tx.sym = .C → wsOut s h = some false) ∧
    (∀ v, s.tx.busy = true → s.tx.half = h → s.tx.sym = .B →
      s.pbMem.read (h.val * s.cfg.halfBytes + s.tx.idx) = some v → wsOut s h = some (v.getLsbD s.tx.bit.toNat))

/-- R149: a FLUSH accepted at edge k makes the transmitter busy for exactly `FLUSH_CYCLES` cycles; then the sequencer is back
at its reset position and the port is ready, so that the earliest next command is accepted at edge
`k + FLUSH_CYCLES + 1`. -/
def Obligations.TransmissionLastsFlushCycles : Prop :=
  ∀ (s : State) (m : Nat), acceptedCmd (nextInputs s) s = some .flush →
    (∀ a < s.cfg.bufBytes, a ∈ s.pbW) → s.noReset (m + 1) → m ≤ s.cfg.flushCycles →
    ∃ t : State, steps (m + 1) s = .next t ∧
      (t.tx.busy = true ↔ m < s.cfg.flushCycles) ∧ (cmdReady t = true ↔ m = s.cfg.flushCycles) ∧
      (m = s.cfg.flushCycles → t.tx = { busy := false, half := 0, idx := 0, bit := 7, sym := .A, cyc := 0 })

/-- R146: the closed form of the waveform, cycle by cycle and on both lines, from the buffer as it stood at the edge that
accepted the FLUSH, through the first cycle after the transmission. -/
def Obligations.WaveformHasTheClosedForm : Prop :=
  ∀ (s : State) (m : Nat), acceptedCmd (nextInputs s) s = some .flush →
    (∀ a < s.cfg.bufBytes, a ∈ s.pbW) → s.noReset (m + 1) → m ≤ s.cfg.flushCycles →
    ∃ t : State, steps (m + 1) s = .next t ∧ ∀ h : Fin 2, wsOut t h = waveform s.cfg s.pbMem m h

/-- A FLUSH's length is that of two halves of `HALF_BYTES` bytes, each 8 bits of `T_BIT` cycles (R151). -/
def Obligations.FlushCyclesCoverBothHalves : Prop :=
  ∀ b : Build, b.cfg.flushCycles = 2 * b.cfg.halfBytes * 8 * b.cfg.tBit ∧ b.cfg.bufBytes = 2 * b.cfg.halfBytes ∧
    b.cfg.th0 < b.cfg.th1 ∧ b.cfg.th1 < b.cfg.tBit

/-- R52 and R54: the serpentine map. Column x occupies slots from `x*N` up; a column scans up (y itself) when its parity and
`EVEN_COL_UP` agree, and down (`N-1-y`) when they do not. It is a bijection from `[0,N) × [0,N)` onto `[0, N*N)`. -/
def Obligations.SerpentineMapIsABijection : Prop :=
  ∀ b : Build,
    (∀ x < b.cfg.n, ∀ y < b.cfg.n,
      ((x % 2 = 0 ↔ b.cfg.evenColUp = true) → slot b.cfg x y = x * b.cfg.n + y) ∧
      (¬(x % 2 = 0 ↔ b.cfg.evenColUp = true) → slot b.cfg x y = x * b.cfg.n + (b.cfg.n - 1 - y))) ∧
    (∀ x < b.cfg.n, ∀ y < b.cfg.n, slot b.cfg x y < b.cfg.n * b.cfg.n) ∧
    (∀ i < b.cfg.n * b.cfg.n, ∃ x < b.cfg.n, ∃ y < b.cfg.n, slot b.cfg x y = i ∧
      ∀ x' < b.cfg.n, ∀ y' < b.cfg.n, slot b.cfg x' y' = i → x' = x ∧ y' = y)

/-- R55: half-frame 0 holds exactly the pixels of columns `0 .. N/2-1`, half-frame 1 those of columns `N/2 .. N-1`: the bytes
of a pixel of column x lie below `HALF_BYTES` exactly when x is below `N/2`. -/
def Obligations.HalvesAreTheColumnHalves : Prop :=
  ∀ (b : Build) (x y k : Nat), x < b.cfg.n → y < b.cfg.n → k < 3 →
    (3 * slot b.cfg x y + k < b.cfg.halfBytes ↔ x < b.cfg.n / 2)

/-- R64: no edge changes the buffer while a transmission runs. -/
def Obligations.BufferIsFrozenWhileBusy : Prop :=
  ∀ (e : EdgeIn) (s t : State), s.tx.busy = true → clockEdge e s = .next t →
    t.pbMem = s.pbMem ∧ (e.rst = false → t.pbW = s.pbW)

/-- R176: only an accepted SET or CLEAR changes a pixel byte; the buffer keeps its contents through every other edge, reset
included. -/
def Obligations.OnlySetAndClearChangePixels : Prop :=
  ∀ (e : EdgeIn) (s t : State), clockEdge e s = .next t → t.pbMem ≠ s.pbMem →
    e.rst = false ∧
    ((∃ x y rgb, acceptedCmd e s = some (.set x y rgb) ∧ (0 ≤ x ∧ x < s.cfg.n) ∧ (0 ≤ y ∧ y < s.cfg.n)) ∨
      ∃ rgb, acceptedCmd e s = some (.clear rgb))

/-- R35: `cmd_err` is sticky: an edge sets it by accepting a reserved opcode, and only reset clears it. -/
def Obligations.CmdErrIsSticky : Prop :=
  (∀ b : Build, (State.resetOf b).cmdErr = false) ∧
  ∀ (e : EdgeIn) (s t : State), clockEdge e s = .next t →
    (e.rst = true → t.cmdErr = false) ∧
    (e.rst = false →
      (t.cmdErr = true ↔
        s.cmdErr = true ∨ (cmdReady s = true ∧ e.cmdValid = true ∧ 5 ≤ opcodeField e.cmd)))

/-! ## The invariant -/

/-- The invariant holds after reset, in every admitted configuration. -/
def Obligations.ResetEstablishesTheInvariant : Prop := (∀ b : Build, (State.resetOf b).Inv) ∧ State.reset.Inv

/-- Every step keeps the invariant. -/
def Obligations.StepKeepsTheInvariant : Prop := ∀ s t : State, s.Inv → step s = .next t → t.Inv

/-- Under the invariant both lines always show a level: the block never sends a byte that has no value (R150). -/
def Obligations.LinesAlwaysHaveALevel : Prop := ∀ (s : State) (h : Fin 2), s.Inv → (wsOut s h).isSome = true
end

