-- ==== Sys2Proof/Laws/State.lean ====
section
/-! SUPPORT. One lemma for each field and each setter of State, true by rfl, so that no proof unfolds a record update. -/

namespace Sys2Proof.Machine.State

variable (s : State)

/-! ### withDec -/

@[simp] theorem withDec_build (d : Decoder) : (s.withDec d).build = s.build := rfl
@[simp] theorem withDec_dec (d : Decoder) : (s.withDec d).dec = d := rfl
@[simp] theorem withDec_mbox (d : Decoder) : (s.withDec d).mbox = s.mbox := rfl
@[simp] theorem withDec_pbMem (d : Decoder) : (s.withDec d).pbMem = s.pbMem := rfl
@[simp] theorem withDec_pbW (d : Decoder) : (s.withDec d).pbW = s.pbW := rfl
@[simp] theorem withDec_tx (d : Decoder) : (s.withDec d).tx = s.tx := rfl
@[simp] theorem withDec_clrCnt (d : Decoder) : (s.withDec d).clrCnt = s.clrCnt := rfl
@[simp] theorem withDec_rsp (d : Decoder) : (s.withDec d).rsp = s.rsp := rfl
@[simp] theorem withDec_cmdErr (d : Decoder) : (s.withDec d).cmdErr = s.cmdErr := rfl
@[simp] theorem withDec_pins (d : Decoder) : (s.withDec d).pins = s.pins := rfl

/-! ### withMbox -/

@[simp] theorem withMbox_build (m : Mailbox) : (s.withMbox m).build = s.build := rfl
@[simp] theorem withMbox_dec (m : Mailbox) : (s.withMbox m).dec = s.dec := rfl
@[simp] theorem withMbox_mbox (m : Mailbox) : (s.withMbox m).mbox = m := rfl
@[simp] theorem withMbox_pbMem (m : Mailbox) : (s.withMbox m).pbMem = s.pbMem := rfl
@[simp] theorem withMbox_pbW (m : Mailbox) : (s.withMbox m).pbW = s.pbW := rfl
@[simp] theorem withMbox_tx (m : Mailbox) : (s.withMbox m).tx = s.tx := rfl
@[simp] theorem withMbox_clrCnt (m : Mailbox) : (s.withMbox m).clrCnt = s.clrCnt := rfl
@[simp] theorem withMbox_rsp (m : Mailbox) : (s.withMbox m).rsp = s.rsp := rfl
@[simp] theorem withMbox_cmdErr (m : Mailbox) : (s.withMbox m).cmdErr = s.cmdErr := rfl
@[simp] theorem withMbox_pins (m : Mailbox) : (s.withMbox m).pins = s.pins := rfl

/-! ### withBuffer -/

@[simp] theorem withBuffer_build (m : Memory) (w : Marks) : (s.withBuffer m w).build = s.build := rfl
@[simp] theorem withBuffer_dec (m : Memory) (w : Marks) : (s.withBuffer m w).dec = s.dec := rfl
@[simp] theorem withBuffer_mbox (m : Memory) (w : Marks) : (s.withBuffer m w).mbox = s.mbox := rfl
@[simp] theorem withBuffer_pbMem (m : Memory) (w : Marks) : (s.withBuffer m w).pbMem = m := rfl
@[simp] theorem withBuffer_pbW (m : Memory) (w : Marks) : (s.withBuffer m w).pbW = w := rfl
@[simp] theorem withBuffer_tx (m : Memory) (w : Marks) : (s.withBuffer m w).tx = s.tx := rfl
@[simp] theorem withBuffer_clrCnt (m : Memory) (w : Marks) : (s.withBuffer m w).clrCnt = s.clrCnt := rfl
@[simp] theorem withBuffer_rsp (m : Memory) (w : Marks) : (s.withBuffer m w).rsp = s.rsp := rfl
@[simp] theorem withBuffer_cmdErr (m : Memory) (w : Marks) : (s.withBuffer m w).cmdErr = s.cmdErr := rfl
@[simp] theorem withBuffer_pins (m : Memory) (w : Marks) : (s.withBuffer m w).pins = s.pins := rfl

/-! ### withTx -/

@[simp] theorem withTx_build (t : Transmitter) : (s.withTx t).build = s.build := rfl
@[simp] theorem withTx_dec (t : Transmitter) : (s.withTx t).dec = s.dec := rfl
@[simp] theorem withTx_mbox (t : Transmitter) : (s.withTx t).mbox = s.mbox := rfl
@[simp] theorem withTx_pbMem (t : Transmitter) : (s.withTx t).pbMem = s.pbMem := rfl
@[simp] theorem withTx_pbW (t : Transmitter) : (s.withTx t).pbW = s.pbW := rfl
@[simp] theorem withTx_tx (t : Transmitter) : (s.withTx t).tx = t := rfl
@[simp] theorem withTx_clrCnt (t : Transmitter) : (s.withTx t).clrCnt = s.clrCnt := rfl
@[simp] theorem withTx_rsp (t : Transmitter) : (s.withTx t).rsp = s.rsp := rfl
@[simp] theorem withTx_cmdErr (t : Transmitter) : (s.withTx t).cmdErr = s.cmdErr := rfl
@[simp] theorem withTx_pins (t : Transmitter) : (s.withTx t).pins = s.pins := rfl

/-! ### withClrCnt -/

@[simp] theorem withClrCnt_build (k : Nat) : (s.withClrCnt k).build = s.build := rfl
@[simp] theorem withClrCnt_dec (k : Nat) : (s.withClrCnt k).dec = s.dec := rfl
@[simp] theorem withClrCnt_mbox (k : Nat) : (s.withClrCnt k).mbox = s.mbox := rfl
@[simp] theorem withClrCnt_pbMem (k : Nat) : (s.withClrCnt k).pbMem = s.pbMem := rfl
@[simp] theorem withClrCnt_pbW (k : Nat) : (s.withClrCnt k).pbW = s.pbW := rfl
@[simp] theorem withClrCnt_tx (k : Nat) : (s.withClrCnt k).tx = s.tx := rfl
@[simp] theorem withClrCnt_clrCnt (k : Nat) : (s.withClrCnt k).clrCnt = k := rfl
@[simp] theorem withClrCnt_rsp (k : Nat) : (s.withClrCnt k).rsp = s.rsp := rfl
@[simp] theorem withClrCnt_cmdErr (k : Nat) : (s.withClrCnt k).cmdErr = s.cmdErr := rfl
@[simp] theorem withClrCnt_pins (k : Nat) : (s.withClrCnt k).pins = s.pins := rfl

/-! ### withRsp -/

@[simp] theorem withRsp_build (r : Response) : (s.withRsp r).build = s.build := rfl
@[simp] theorem withRsp_dec (r : Response) : (s.withRsp r).dec = s.dec := rfl
@[simp] theorem withRsp_mbox (r : Response) : (s.withRsp r).mbox = s.mbox := rfl
@[simp] theorem withRsp_pbMem (r : Response) : (s.withRsp r).pbMem = s.pbMem := rfl
@[simp] theorem withRsp_pbW (r : Response) : (s.withRsp r).pbW = s.pbW := rfl
@[simp] theorem withRsp_tx (r : Response) : (s.withRsp r).tx = s.tx := rfl
@[simp] theorem withRsp_clrCnt (r : Response) : (s.withRsp r).clrCnt = s.clrCnt := rfl
@[simp] theorem withRsp_rsp (r : Response) : (s.withRsp r).rsp = r := rfl
@[simp] theorem withRsp_cmdErr (r : Response) : (s.withRsp r).cmdErr = s.cmdErr := rfl
@[simp] theorem withRsp_pins (r : Response) : (s.withRsp r).pins = s.pins := rfl

/-! ### withCmdErr -/

@[simp] theorem withCmdErr_build (b : Bool) : (s.withCmdErr b).build = s.build := rfl
@[simp] theorem withCmdErr_dec (b : Bool) : (s.withCmdErr b).dec = s.dec := rfl
@[simp] theorem withCmdErr_mbox (b : Bool) : (s.withCmdErr b).mbox = s.mbox := rfl
@[simp] theorem withCmdErr_pbMem (b : Bool) : (s.withCmdErr b).pbMem = s.pbMem := rfl
@[simp] theorem withCmdErr_pbW (b : Bool) : (s.withCmdErr b).pbW = s.pbW := rfl
@[simp] theorem withCmdErr_tx (b : Bool) : (s.withCmdErr b).tx = s.tx := rfl
@[simp] theorem withCmdErr_clrCnt (b : Bool) : (s.withCmdErr b).clrCnt = s.clrCnt := rfl
@[simp] theorem withCmdErr_rsp (b : Bool) : (s.withCmdErr b).rsp = s.rsp := rfl
@[simp] theorem withCmdErr_cmdErr (b : Bool) : (s.withCmdErr b).cmdErr = b := rfl
@[simp] theorem withCmdErr_pins (b : Bool) : (s.withCmdErr b).pins = s.pins := rfl

/-! ### withPins -/

@[simp] theorem withPins_build (p : List EdgeIn) : (s.withPins p).build = s.build := rfl
@[simp] theorem withPins_dec (p : List EdgeIn) : (s.withPins p).dec = s.dec := rfl
@[simp] theorem withPins_mbox (p : List EdgeIn) : (s.withPins p).mbox = s.mbox := rfl
@[simp] theorem withPins_pbMem (p : List EdgeIn) : (s.withPins p).pbMem = s.pbMem := rfl
@[simp] theorem withPins_pbW (p : List EdgeIn) : (s.withPins p).pbW = s.pbW := rfl
@[simp] theorem withPins_tx (p : List EdgeIn) : (s.withPins p).tx = s.tx := rfl
@[simp] theorem withPins_clrCnt (p : List EdgeIn) : (s.withPins p).clrCnt = s.clrCnt := rfl
@[simp] theorem withPins_rsp (p : List EdgeIn) : (s.withPins p).rsp = s.rsp := rfl
@[simp] theorem withPins_cmdErr (p : List EdgeIn) : (s.withPins p).cmdErr = s.cmdErr := rfl
@[simp] theorem withPins_pins (p : List EdgeIn) : (s.withPins p).pins = p := rfl

/-! ### Reset values (R40), for every configuration -/

variable (b : Build)

@[simp] theorem resetOf_build : (State.resetOf b).build = b := rfl
@[simp] theorem resetOf_dec : (State.resetOf b).dec = Decoder.initial := rfl
@[simp] theorem resetOf_mbox : (State.resetOf b).mbox = { valid := false, word := 0 } := rfl
@[simp] theorem resetOf_pbMem : (State.resetOf b).pbMem = [] := rfl
@[simp] theorem resetOf_pbW : (State.resetOf b).pbW = [] := rfl
@[simp] theorem resetOf_tx : (State.resetOf b).tx = Transmitter.initial := rfl
@[simp] theorem resetOf_clrCnt : (State.resetOf b).clrCnt = 0 := rfl
@[simp] theorem resetOf_rsp : (State.resetOf b).rsp = { valid := false, data := 0 } := rfl
@[simp] theorem resetOf_cmdErr : (State.resetOf b).cmdErr = false := rfl
@[simp] theorem resetOf_pins : (State.resetOf b).pins = [] := rfl

/-- Two states with the same fields are the same state. -/
theorem eq_of_fields {s t : State} (h1 : s.build = t.build) (h2 : s.dec = t.dec) (h3 : s.mbox = t.mbox)
    (h4 : s.pbMem = t.pbMem) (h5 : s.pbW = t.pbW) (h6 : s.tx = t.tx) (h7 : s.clrCnt = t.clrCnt)
    (h8 : s.rsp = t.rsp) (h9 : s.cmdErr = t.cmdErr) (h10 : s.pins = t.pins) : s = t := by
  cases s
  cases t
  simp_all

end Sys2Proof.Machine.State
end

