-- ==== Sys2Proof/Laws/Memory.lean ====
section
/-! SUPPORT. What the byte-space operations do: read after write, writes elsewhere, and the canonical form every one of them
keeps. -/

namespace Sys2Proof.Machine

@[simp] theorem Memory.read_nil (a : Nat) : Memory.read [] a = none := rfl

@[simp] theorem Memory.wf_nil : Memory.wf [] := List.Pairwise.nil

@[simp] theorem Marks.wf_nil : Marks.wf [] := List.Pairwise.nil

/-- A read after a write to the same address gives the value written. -/
@[simp] theorem Memory.read_write_same (m : Memory) (a : Nat) (v : Byte) : (m.write a v).read a = some v := by
  induction m with
  | nil => simp [Memory.write, Memory.read]
  | cons c rest ih =>
    obtain ⟨k, u⟩ := c
    simp only [Memory.write]
    split
    · simp [Memory.read]
    · split
      · simp [Memory.read]
      · rename_i h
        simp only [Memory.read, ih, if_neg (Ne.symm h)]

/-- A write leaves every other address alone. -/
theorem Memory.read_write_other (m : Memory) {a b : Nat} (v : Byte) (h : b ≠ a) :
    (m.write a v).read b = m.read b := by
  induction m with
  | nil => simp [Memory.write, Memory.read, h.symm]
  | cons c rest ih =>
    obtain ⟨k, u⟩ := c
    simp only [Memory.write]
    split
    · simp only [Memory.read, if_neg h.symm]
    · split
      · rename_i hk
        subst hk
        simp only [Memory.read, if_neg h.symm]
      · simp only [Memory.read, ih]

/-- The addresses listed after a write are those listed before and the one written. -/
theorem Memory.mem_write {m : Memory} {a : Nat} {v : Byte} {p : Host.Cell} (h : p ∈ m.write a v) :
    p = (a, v) ∨ p ∈ m := by
  induction m with
  | nil => simpa [Memory.write] using h
  | cons c rest ih =>
    obtain ⟨k, u⟩ := c
    simp only [Memory.write] at h
    split at h
    · simpa using h
    · split at h
      · rcases List.mem_cons.1 h with h | h
        · exact .inl h
        · exact .inr (List.mem_cons_of_mem _ h)
      · rcases List.mem_cons.1 h with h | h
        · exact .inr (h ▸ List.mem_cons_self)
        · exact (ih h).imp_right (List.mem_cons_of_mem _)

/-- A write keeps the canonical form. -/
theorem Memory.wf_write {m : Memory} (h : m.wf) (a : Nat) (v : Byte) : (m.write a v).wf := by
  induction m with
  | nil => simp [Memory.write, Memory.wf]
  | cons c rest ih =>
    obtain ⟨k, u⟩ := c
    obtain ⟨hk, hr⟩ := List.pairwise_cons.1 h
    simp only [Memory.write]
    split
    · rename_i hlt
      refine List.pairwise_cons.2 ⟨fun p hp => ?_, h⟩
      rcases List.mem_cons.1 hp with rfl | hp
      · exact hlt
      · exact lt_trans hlt (hk p hp)
    · split
      · rename_i heq
        exact List.pairwise_cons.2 ⟨fun p hp => heq ▸ hk p hp, hr⟩
      · rename_i h1 h2
        refine List.pairwise_cons.2 ⟨fun p hp => ?_, ih hr⟩
        rcases Memory.mem_write hp with rfl | hp
        · exact lt_of_le_of_ne (not_lt.1 h1) (Ne.symm h2)
        · exact hk p hp

/-- What an n-byte write leaves alone. -/
theorem Memory.read_writeBytes_other (m : Memory) (a n v b : Nat) (h : b < a ∨ a + n ≤ b) :
    (m.writeBytes a n v).read b = m.read b := by
  induction n generalizing m a v with
  | zero => rfl
  | succ k ih =>
    rw [Memory.writeBytes, ih _ (a + 1) v (by omega), Memory.read_write_other]
    omega

/-- An n-byte write keeps the canonical form. -/
theorem Memory.wf_writeBytes {m : Memory} (h : m.wf) (a n v : Nat) : (m.writeBytes a n v).wf := by
  induction n generalizing m a v with
  | zero => exact h
  | succ k ih => exact ih (Memory.wf_write h _ _) _ _

/-! ### Ghost bits -/

/-- After a mark exactly the marked address is added. -/
@[simp] theorem Marks.mem_mark {w : Marks} {a b : Nat} : b ∈ w.mark a ↔ b = a ∨ b ∈ w := by
  induction w with
  | nil => simp [Marks.mark]
  | cons k rest ih =>
    simp only [Marks.mark]
    split
    · simp
    · split
      · rename_i h
        simp [h]
      · simp only [List.mem_cons, ih]
        tauto

/-- A mark keeps the canonical form. -/
theorem Marks.wf_mark {w : Marks} (h : w.wf) (a : Nat) : (w.mark a).wf := by
  induction w with
  | nil => simp [Marks.mark, Marks.wf]
  | cons k rest ih =>
    obtain ⟨hk, hr⟩ := List.pairwise_cons.1 h
    simp only [Marks.mark]
    split
    · rename_i hlt
      refine List.pairwise_cons.2 ⟨fun p hp => ?_, h⟩
      rcases List.mem_cons.1 hp with rfl | hp
      · exact hlt
      · exact lt_trans hlt (hk p hp)
    · split
      · exact h
      · rename_i h1 h2
        refine List.pairwise_cons.2 ⟨fun p hp => ?_, ih hr⟩
        rcases Marks.mem_mark.1 hp with rfl | hp
        · exact lt_of_le_of_ne (not_lt.1 h1) (Ne.symm h2)
        · exact hk p hp

@[simp] theorem Marks.written_iff {w : Marks} {a : Nat} : w.written a = true ↔ a ∈ w := by
  simp [Marks.written]

/-- No byte is unwritten exactly when every byte is marked. -/
theorem firstUnwritten_none {c : Config} {w : Marks} :
    firstUnwritten c w = none ↔ ∀ a < c.bufBytes, a ∈ w := by
  simp [firstUnwritten, List.find?_eq_none]

/-- The byte reported is in range, unwritten, and the lowest such. -/
theorem firstUnwritten_some {c : Config} {w : Marks} {a : Nat} (h : firstUnwritten c w = some a) :
    a < c.bufBytes ∧ a ∉ w ∧ ∀ b < a, b ∈ w := by
  rw [firstUnwritten, List.find?_range_eq_some] at h
  obtain ⟨h1, h2, h3⟩ := h
  refine ⟨by simpa using h2, by simpa [Marks.written] using h1, fun b hb => by simpa using h3 b hb⟩

/-! ### Byte stores -/

@[simp] theorem storeByte_pbMem (a : Nat) (v : Byte) (s : State) : (storeByte a v s).pbMem = s.pbMem.write a v := rfl
@[simp] theorem storeByte_pbW (a : Nat) (v : Byte) (s : State) : (storeByte a v s).pbW = s.pbW.mark a := rfl

/-- A byte store changes nothing but the buffer and its ghost bits. -/
theorem storeByte_frame (a : Nat) (v : Byte) (s : State) :
    storeByte a v s = s.withBuffer (storeByte a v s).pbMem (storeByte a v s).pbW := rfl

@[simp] theorem storeByte_build (a : Nat) (v : Byte) (s : State) : (storeByte a v s).build = s.build := rfl

end Sys2Proof.Machine
end

