-- ==== Sys2Proof/Laws/Buffer.lean ====
section
/-! SUPPORT. What the buffer's store operations do, once each: the bytes they write, the ghost bits they set, and that
they change nothing else. -/

namespace Sys2Proof.Machine

/-- A state that differs from `s` in nothing but the pixel buffer and its ghost bits. -/
def SameButBuffer (s t : State) : Prop := t = s.withBuffer t.pbMem t.pbW

theorem SameButBuffer.refl (s : State) : SameButBuffer s s := rfl

theorem SameButBuffer.trans {s t u : State} (h : SameButBuffer s t) (k : SameButBuffer t u) : SameButBuffer s u := by
  unfold SameButBuffer at *
  rw [k, h]
  rfl

theorem SameButBuffer.build {s t : State} (h : SameButBuffer s t) : t.build = s.build := by rw [h]; rfl
theorem SameButBuffer.dec {s t : State} (h : SameButBuffer s t) : t.dec = s.dec := by rw [h]; rfl
theorem SameButBuffer.mbox {s t : State} (h : SameButBuffer s t) : t.mbox = s.mbox := by rw [h]; rfl
theorem SameButBuffer.tx {s t : State} (h : SameButBuffer s t) : t.tx = s.tx := by rw [h]; rfl
theorem SameButBuffer.clrCnt {s t : State} (h : SameButBuffer s t) : t.clrCnt = s.clrCnt := by rw [h]; rfl
theorem SameButBuffer.rsp {s t : State} (h : SameButBuffer s t) : t.rsp = s.rsp := by rw [h]; rfl
theorem SameButBuffer.cmdErr {s t : State} (h : SameButBuffer s t) : t.cmdErr = s.cmdErr := by rw [h]; rfl
theorem SameButBuffer.pins {s t : State} (h : SameButBuffer s t) : t.pins = s.pins := by rw [h]; rfl

/-- Storing a slot changes nothing but the buffer and its ghost bits. -/
theorem storeSlot_frame (i : Nat) (col : Color) (s : State) : SameButBuffer s (storeSlot i col s) := rfl

/-- A slot's three bytes after a store: byte `k` holds the channel in place `k`. -/
theorem storeSlot_read_slot (i : Nat) (col : Color) (s : State) {k : Nat} (hk : k < 3) :
    (storeSlot i col s).pbMem.read (byteAddr i k) = some (placedByte s.cfg col k) := by
  obtain rfl | rfl | rfl : k = 0 ∨ k = 1 ∨ k = 2 := by omega
  all_goals simp [storeSlot, byteAddr, Memory.read_write_other]

/-- Every byte outside the slot is left alone. -/
theorem storeSlot_read_other (i : Nat) (col : Color) (s : State) {a : Nat} (h : a < 3 * i ∨ 3 * i + 2 < a) :
    (storeSlot i col s).pbMem.read a = s.pbMem.read a := by
  simp only [storeSlot, byteAddr, storeByte_pbMem]
  rw [Memory.read_write_other, Memory.read_write_other, Memory.read_write_other] <;> omega

/-- The ghost bits of exactly the slot's three bytes are set. -/
theorem storeSlot_marks (i : Nat) (col : Color) (s : State) (a : Nat) :
    a ∈ (storeSlot i col s).pbW ↔ (3 * i ≤ a ∧ a ≤ 3 * i + 2) ∨ a ∈ s.pbW := by
  simp only [storeSlot, byteAddr, storeByte_pbW, Marks.mem_mark]
  constructor
  · rintro (h | h | h | h)
    · exact .inl (by omega)
    · exact .inl (by omega)
    · exact .inl (by omega)
    · exact .inr h
  · rintro (h | h)
    · omega
    · exact .inr (.inr (.inr h))

theorem storeSlot_mem_wf (i : Nat) (col : Color) {s : State} (h : s.pbMem.wf) : (storeSlot i col s).pbMem.wf :=
  Memory.wf_write (Memory.wf_write (Memory.wf_write h _ _) _ _) _ _

theorem storeSlot_marks_wf (i : Nat) (col : Color) {s : State} (h : s.pbW.wf) : (storeSlot i col s).pbW.wf :=
  Marks.wf_mark (Marks.wf_mark (Marks.wf_mark h _) _) _

@[simp] theorem storeSlot_build (i : Nat) (col : Color) (s : State) : (storeSlot i col s).build = s.build := rfl
@[simp] theorem storeSlot_dec (i : Nat) (col : Color) (s : State) : (storeSlot i col s).dec = s.dec := rfl
@[simp] theorem storeSlot_mbox (i : Nat) (col : Color) (s : State) : (storeSlot i col s).mbox = s.mbox := rfl
@[simp] theorem storeSlot_tx (i : Nat) (col : Color) (s : State) : (storeSlot i col s).tx = s.tx := rfl
@[simp] theorem storeSlot_clrCnt (i : Nat) (col : Color) (s : State) : (storeSlot i col s).clrCnt = s.clrCnt := rfl
@[simp] theorem storeSlot_rsp (i : Nat) (col : Color) (s : State) : (storeSlot i col s).rsp = s.rsp := rfl
@[simp] theorem storeSlot_cmdErr (i : Nat) (col : Color) (s : State) : (storeSlot i col s).cmdErr = s.cmdErr := rfl
@[simp] theorem storeSlot_pins (i : Nat) (col : Color) (s : State) : (storeSlot i col s).pins = s.pins := rfl

/-- Filling changes nothing but the buffer and its ghost bits. -/
theorem fillSlots_frame (col : Color) (k : Nat) (s : State) : SameButBuffer s (fillSlots col k s) := by
  induction k with
  | zero => exact .refl s
  | succ k ih => exact ih.trans (storeSlot_frame k col _)

@[simp] theorem fillSlots_build (col : Color) (k : Nat) (s : State) : (fillSlots col k s).build = s.build :=
  (fillSlots_frame col k s).build
@[simp] theorem fillSlots_dec (col : Color) (k : Nat) (s : State) : (fillSlots col k s).dec = s.dec :=
  (fillSlots_frame col k s).dec
@[simp] theorem fillSlots_mbox (col : Color) (k : Nat) (s : State) : (fillSlots col k s).mbox = s.mbox :=
  (fillSlots_frame col k s).mbox
@[simp] theorem fillSlots_tx (col : Color) (k : Nat) (s : State) : (fillSlots col k s).tx = s.tx :=
  (fillSlots_frame col k s).tx
@[simp] theorem fillSlots_clrCnt (col : Color) (k : Nat) (s : State) : (fillSlots col k s).clrCnt = s.clrCnt :=
  (fillSlots_frame col k s).clrCnt
@[simp] theorem fillSlots_rsp (col : Color) (k : Nat) (s : State) : (fillSlots col k s).rsp = s.rsp :=
  (fillSlots_frame col k s).rsp
@[simp] theorem fillSlots_cmdErr (col : Color) (k : Nat) (s : State) : (fillSlots col k s).cmdErr = s.cmdErr :=
  (fillSlots_frame col k s).cmdErr
@[simp] theorem fillSlots_pins (col : Color) (k : Nat) (s : State) : (fillSlots col k s).pins = s.pins :=
  (fillSlots_frame col k s).pins

/-- The byte in place `j` of every filled slot. -/
theorem fillSlots_read_slot (col : Color) (s : State) {k i j : Nat} (hi : i < k) (hj : j < 3) :
    (fillSlots col k s).pbMem.read (byteAddr i j) = some (placedByte s.cfg col j) := by
  induction k with
  | zero => omega
  | succ k ih =>
    simp only [fillSlots]
    by_cases h : i = k
    · subst h
      simpa [State.cfg] using storeSlot_read_slot i col (fillSlots col i s) hj
    · rw [storeSlot_read_other, ih (by omega)]
      simp only [byteAddr]
      omega

/-- Every byte past the filled slots is left alone. -/
theorem fillSlots_read_other (col : Color) (s : State) {k a : Nat} (h : 3 * k ≤ a) :
    (fillSlots col k s).pbMem.read a = s.pbMem.read a := by
  induction k with
  | zero => rfl
  | succ k ih => rw [fillSlots, storeSlot_read_other _ _ _ (by omega), ih (by omega)]

/-- The ghost bits of exactly the filled bytes are set. -/
theorem fillSlots_marks (col : Color) (s : State) (k a : Nat) :
    a ∈ (fillSlots col k s).pbW ↔ a < 3 * k ∨ a ∈ s.pbW := by
  induction k with
  | zero => simp [fillSlots]
  | succ k ih =>
    rw [fillSlots, storeSlot_marks, ih]
    constructor
    · rintro (h | h | h)
      · exact .inl (by omega)
      · exact .inl (by omega)
      · exact .inr h
    · rintro (h | h)
      · by_cases hk : a < 3 * k
        · exact .inr (.inl hk)
        · exact .inl (by omega)
      · exact .inr (.inr h)

theorem fillSlots_mem_wf (col : Color) (k : Nat) {s : State} (h : s.pbMem.wf) : (fillSlots col k s).pbMem.wf := by
  induction k with
  | zero => exact h
  | succ k ih => exact storeSlot_mem_wf k col ih

theorem fillSlots_marks_wf (col : Color) (k : Nat) {s : State} (h : s.pbW.wf) : (fillSlots col k s).pbW.wf := by
  induction k with
  | zero => exact h
  | succ k ih => exact storeSlot_marks_wf k col ih

/-! ### The serpentine map -/

/-- An in-range coordinate, as natural numbers below N. -/
theorem inRange_iff {c : Config} {x y : Int} :
    inRange c x y = true ↔ (0 ≤ x ∧ x < c.n) ∧ (0 ≤ y ∧ y < c.n) := by
  simp [inRange, and_assoc]

/-- Every slot of an in-range coordinate lies in the buffer. -/
theorem slot_lt {c : Config} {x y : Nat} (hx : x < c.n) (hy : y < c.n) : slot c x y < c.nPix := by
  have hin : (if decide (x % 2 = 0) = c.evenColUp then y else c.n - 1 - y) < c.n := by
    split <;> omega
  have := Nat.mul_le_mul_right c.n (Nat.succ_le_of_lt hx)
  simp only [slot, Config.nPix]
  rw [Nat.succ_mul] at this
  omega

/-- `slotOf` gives a slot exactly for an in-range coordinate, and it lies in the buffer. -/
theorem slotOf_some {c : Config} {x y : Int} {i : Nat} (h : slotOf c x y = some i) :
    inRange c x y = true ∧ i = slot c x.toNat y.toNat ∧ i < c.nPix := by
  simp only [slotOf] at h
  split at h
  · rename_i hr
    obtain ⟨⟨_, hx⟩, ⟨_, hy⟩⟩ := inRange_iff.1 hr
    cases h
    exact ⟨hr, rfl, slot_lt (by omega) (by omega)⟩
  · cases h

theorem slotOf_none {c : Config} {x y : Int} : slotOf c x y = none ↔ inRange c x y = false := by
  simp [slotOf]

end Sys2Proof.Machine
end

