-- ==== Sys2Proof/Laws/Decoder.lean ====
section
/-! SUPPORT. What one tick of the decoder can do: one lemma for each of its cases, so that no proof unfolds the tick. -/

namespace Sys2Proof.Machine

theorem satInc_toNat (k : Count) : (satInc k).toNat = min (k.toNat + 1) 255 := by
  have : min (k.toNat + 1) 255 < 2 ^ 8 := by omega
  simp only [satInc, cntW, BitVec.toNat_ofNat]
  exact Nat.mod_eq_of_lt this

/-- At a tick that is no edge only the counter moves, and at a timeout the accumulator empties. -/
theorem tickDecoder_quiet {c : Config} {p : Bool} {d : Decoder} (h : inputStage c p = d.lvl) :
    tickDecoder c p d =
      ({ d with acc := (timeoutStage c (satInc d.cnt).toNat d.acc).1, cnt := satInc d.cnt },
        (timeoutStage c (satInc d.cnt).toNat d.acc).2) := by
  simp [tickDecoder, h]

/-- At an edge the level is taken, the counter restarts, and the class of the edge decides the rest. -/
theorem tickDecoder_edge {c : Config} {p : Bool} {d : Decoder} (h : inputStage c p ≠ d.lvl) :
    tickDecoder c p d =
      (let t := timeoutStage c (satInc d.cnt).toNat d.acc
       let r := edgeStage (inputStage c p) t.1 d.phase (classify c (satInc d.cnt).toNat t.1 d.phase)
       ({ acc := r.1, lvl := inputStage c p, phase := r.2, cnt := 0 }, t.2)) := by
  simp [tickDecoder, h]

theorem timeoutStage_before {c : Config} {e : Nat} (a : AccWord) (h : e ≤ c.pulseMax) :
    timeoutStage c e a = (a, none) := by
  simp [timeoutStage, not_lt.2 h]

theorem timeoutStage_after {c : Config} {e : Nat} (a : AccWord) (h : c.pulseMax < e) :
    timeoutStage c e a = (0, if startValid a then some (a.extractLsb' 0 14) else none) := by
  simp [timeoutStage, h]

/-- A word is published only by a timeout, and only one the validator accepts. -/
theorem tickDecoder_publishes {c : Config} {p : Bool} {d : Decoder} {w : RcWord}
    (h : (tickDecoder c p d).2 = some w) :
    c.pulseMax < (satInc d.cnt).toNat ∧ startValid d.acc = true ∧ w = d.acc.extractLsb' 0 14 := by
  have key : (tickDecoder c p d).2 = (timeoutStage c (satInc d.cnt).toNat d.acc).2 := by
    by_cases hb : inputStage c p = d.lvl
    · rw [tickDecoder_quiet hb]
    · rw [tickDecoder_edge hb]
  rw [key] at h
  by_cases he : c.pulseMax < (satInc d.cnt).toNat
  · rw [timeoutStage_after _ he] at h
    by_cases hv : startValid d.acc = true
    · simp only [hv, if_true, Option.some.injEq] at h
      exact ⟨he, hv, h.symm⟩
    · simp [hv] at h
  · rw [timeoutStage_before _ (not_lt.1 he)] at h
    cases h

/-- After a tick the level register holds the level sampled. -/
theorem tickDecoder_lvl (c : Config) (p : Bool) (d : Decoder) : (tickDecoder c p d).1.lvl = inputStage c p := by
  by_cases hb : inputStage c p = d.lvl
  · rw [tickDecoder_quiet hb, hb]
  · rw [tickDecoder_edge hb]

/-- The validator asks for a 14-bit value that begins with two 1 bits: `0x3000 .. 0x3FFF` (R105). -/
theorem startValid_iff (a : AccWord) : startValid a = true ↔ a.toNat / 2 ^ 12 = 3 := by
  have h1 : a.getLsbD 14 = decide (a.toNat / 2 ^ 14 % 2 = 1) := by
    rw [BitVec.getLsbD, Nat.testBit_eq_decide_div_mod_eq]
  have h2 : (a.extractLsb' 12 2 = startPattern) ↔ a.toNat / 2 ^ 12 % 4 = 3 := by
    rw [← BitVec.toNat_inj, BitVec.extractLsb'_toNat, Nat.shiftRight_eq_div_pow]
    rfl
  have h := a.isLt
  simp only [startValid, h1, h2, Bool.and_eq_true, Bool.not_eq_true', decide_eq_false_iff_not, decide_eq_true_eq]
  omega

/-- A published word begins with the canonical start bits. -/
theorem startValid_word {a : AccWord} (h : startValid a = true) :
    (a.extractLsb' 0 14 : RcWord).extractLsb' 12 2 = startPattern := by
  simp only [startValid, Bool.and_eq_true, decide_eq_true_eq] at h
  rw [← h.2]
  apply BitVec.eq_of_getLsbD_eq
  intro i hi
  simp only [BitVec.getLsbD_extractLsb']
  have h1 : i < 2 := hi
  have h2 : 12 + i < 14 := by omega
  simp [h1, h2]

end Sys2Proof.Machine
end

