-- ==== Sys2Proof/Laws/Exec.lean ====
section
/-! SUPPORT. What an operation can do: the one inversion lemma over all of them, and what each small effect changes. -/

namespace Sys2Proof.Machine

/-- A reserved opcode sets `cmd_err` and answers a next state. -/
theorem exec_reserved {i : Instr} (h : isReserved i = true) (s : State) : exec i s = .next (flagReserved s) := by
  cases i <;> first | rfl | simp [isReserved, opcodeOf] at h

/-- Everything an operation that answers a next state can have done. -/
theorem exec_next_cases {i : Instr} {s t : State} (h : exec i s = .next t) :
    (i = .nop ∧ t = s) ∨
    (i = .take ∧ t = emptyMailbox (respond (takeData s.cfg s.mbox) s)) ∨
    (∃ x y rgb, i = .set x y rgb ∧
      ((slotOf s.cfg x y = none ∧ t = s) ∨ ∃ j, slotOf s.cfg x y = some j ∧ t = storeSlot j rgb s)) ∨
    (∃ rgb, i = .clear rgb ∧ t = (fillSlots rgb s.cfg.nPix s).withClrCnt (s.cfg.clearLat - 1)) ∨
    (i = .flush ∧ firstUnwritten s.cfg s.pbW = none ∧ t = s.withTx startTx) ∨
    (isReserved i = true ∧ t = flagReserved s) ∨
    (∃ p, i = .tick p ∧ t = publishIf (tickDecoder s.cfg p s.dec).2 (s.withDec (tickDecoder s.cfg p s.dec).1)) := by
  cases hr : isReserved i with
  | true =>
    rw [exec_reserved hr] at h
    cases h
    exact .inr (.inr (.inr (.inr (.inr (.inl ⟨rfl, rfl⟩)))))
  | false =>
    cases i with
    | nop => cases h; exact .inl ⟨rfl, rfl⟩
    | take => cases h; exact .inr (.inl ⟨rfl, rfl⟩)
    | set x y rgb =>
      refine .inr (.inr (.inl ⟨x, y, rgb, rfl, ?_⟩))
      simp only [exec, execSet] at h
      split at h
      · rename_i j hj
        cases h
        exact .inr ⟨j, hj, rfl⟩
      · rename_i hj
        cases h
        exact .inl ⟨hj, rfl⟩
    | clear rgb => cases h; exact .inr (.inr (.inr (.inl ⟨rgb, rfl, rfl⟩)))
    | flush =>
      simp only [exec, execFlush] at h
      split at h
      · cases h
      · rename_i hf
        cases h
        exact .inr (.inr (.inr (.inr (.inl ⟨rfl, hf, rfl⟩))))
    | tick p => cases h; exact .inr (.inr (.inr (.inr (.inr (.inr ⟨p, rfl, rfl⟩)))))
    | _ => simp [isReserved, opcodeOf] at hr

/-- The response from a full mailbox shows the word's presence in bit 7 (R79). -/
theorem takeData_has {c : Config} {m : Mailbox} (h : m.valid = true) : (takeData c m).getLsbD 7 = true := by
  rw [takeData, if_pos h, BitVec.getLsbD_cast, BitVec.getLsbD_append]
  rfl

/-- The response from an empty mailbox is 0x00 (R79). -/
theorem takeData_none {c : Config} {m : Mailbox} (h : m.valid = false) : takeData c m = 0x00 := by
  simp [takeData, h]

/-! ### What the small effects leave alone -/

section
variable (s : State) (v : Byte) (pub : Option RcWord)

@[simp] theorem emptyMailbox_mbox : (emptyMailbox s).mbox = { s.mbox with valid := false } := rfl
@[simp] theorem emptyMailbox_build : (emptyMailbox s).build = s.build := rfl
@[simp] theorem emptyMailbox_dec : (emptyMailbox s).dec = s.dec := rfl
@[simp] theorem emptyMailbox_pbMem : (emptyMailbox s).pbMem = s.pbMem := rfl
@[simp] theorem emptyMailbox_pbW : (emptyMailbox s).pbW = s.pbW := rfl
@[simp] theorem emptyMailbox_tx : (emptyMailbox s).tx = s.tx := rfl
@[simp] theorem emptyMailbox_clrCnt : (emptyMailbox s).clrCnt = s.clrCnt := rfl
@[simp] theorem emptyMailbox_rsp : (emptyMailbox s).rsp = s.rsp := rfl
@[simp] theorem emptyMailbox_cmdErr : (emptyMailbox s).cmdErr = s.cmdErr := rfl
@[simp] theorem emptyMailbox_pins : (emptyMailbox s).pins = s.pins := rfl

@[simp] theorem respond_rsp : (respond v s).rsp = { valid := true, data := v } := rfl
@[simp] theorem respond_build : (respond v s).build = s.build := rfl
@[simp] theorem respond_dec : (respond v s).dec = s.dec := rfl
@[simp] theorem respond_mbox : (respond v s).mbox = s.mbox := rfl
@[simp] theorem respond_pbMem : (respond v s).pbMem = s.pbMem := rfl
@[simp] theorem respond_pbW : (respond v s).pbW = s.pbW := rfl
@[simp] theorem respond_tx : (respond v s).tx = s.tx := rfl
@[simp] theorem respond_clrCnt : (respond v s).clrCnt = s.clrCnt := rfl
@[simp] theorem respond_cmdErr : (respond v s).cmdErr = s.cmdErr := rfl
@[simp] theorem respond_pins : (respond v s).pins = s.pins := rfl

@[simp] theorem publishIf_build : (publishIf pub s).build = s.build := by cases pub <;> rfl
@[simp] theorem publishIf_dec : (publishIf pub s).dec = s.dec := by cases pub <;> rfl
@[simp] theorem publishIf_pbMem : (publishIf pub s).pbMem = s.pbMem := by cases pub <;> rfl
@[simp] theorem publishIf_pbW : (publishIf pub s).pbW = s.pbW := by cases pub <;> rfl
@[simp] theorem publishIf_tx : (publishIf pub s).tx = s.tx := by cases pub <;> rfl
@[simp] theorem publishIf_clrCnt : (publishIf pub s).clrCnt = s.clrCnt := by cases pub <;> rfl
@[simp] theorem publishIf_rsp : (publishIf pub s).rsp = s.rsp := by cases pub <;> rfl
@[simp] theorem publishIf_cmdErr : (publishIf pub s).cmdErr = s.cmdErr := by cases pub <;> rfl
@[simp] theorem publishIf_pins : (publishIf pub s).pins = s.pins := by cases pub <;> rfl

/-- The mailbox after a tick's publish, if there is one (R119). -/
theorem publishIf_mbox :
    (publishIf pub s).mbox = match pub with
      | some w => { valid := true, word := w }
      | none => s.mbox := by cases pub <;> rfl

end

end Sys2Proof.Machine
end

