-- ==== Sys2Proof/Laws/Transmitter.lean ====
section
/-! SUPPORT. What one step of the sequencer can do. -/

namespace Sys2Proof.Machine

/-- Inside a symbol only the cycle moves. -/
theorem advance_cyc {c : Config} {t : Transmitter} (h : t.cyc + 1 < symLen c t.sym) :
    advance c t = { t with cyc := t.cyc + 1 } := by
  simp [advance, h]

/-- A step of the sequencer stays inside one symbol, goes to the next symbol of the bit, to the next bit of the byte, to the
next byte of the half, to the other half, or ends the transmission (R142). -/
theorem advance_cases (c : Config) (t : Transmitter) :
    (t.cyc + 1 < symLen c t.sym ∧ advance c t = { t with cyc := t.cyc + 1 }) ∨
    (t.sym = .A ∧ advance c t = { t with sym := .B, cyc := 0 }) ∨
    (t.sym = .B ∧ advance c t = { t with sym := .C, cyc := 0 }) ∨
    (t.sym = .C ∧ t.bit ≠ 0 ∧ advance c t = { t with bit := t.bit - 1, sym := .A, cyc := 0 }) ∨
    (t.sym = .C ∧ t.bit = 0 ∧ t.idx + 1 < c.halfBytes ∧
      advance c t = { t with idx := t.idx + 1, bit := 7, sym := .A, cyc := 0 }) ∨
    (t.sym = .C ∧ t.bit = 0 ∧ ¬t.idx + 1 < c.halfBytes ∧ t.half = 0 ∧
      advance c t = { t with half := 1, idx := 0, bit := 7, sym := .A, cyc := 0 }) ∨
    (t.sym = .C ∧ t.bit = 0 ∧ ¬t.idx + 1 < c.halfBytes ∧ t.half ≠ 0 ∧ advance c t = Transmitter.initial) := by
  by_cases hc : t.cyc + 1 < symLen c t.sym
  · exact .inl ⟨hc, advance_cyc hc⟩
  · have ha : advance c t = endSym c { t with cyc := 0 } := by simp [advance, hc]
    rw [ha]
    rcases hs : t.sym with _ | _ | _
    · exact .inr (.inl ⟨rfl, by simp [endSym]⟩)
    · exact .inr (.inr (.inl ⟨rfl, by simp [endSym]⟩))
    · by_cases hb : t.bit = 0
      · by_cases hi : t.idx + 1 < c.halfBytes
        · exact .inr (.inr (.inr (.inr (.inl ⟨rfl, hb, hi, by simp [endSym, endBit, hb, endByte, hi]⟩))))
        · by_cases hh : t.half = 0
          · exact .inr (.inr (.inr (.inr (.inr (.inl
              ⟨rfl, hb, hi, hh, by simp [endSym, endBit, hb, endByte, hi, endHalf, hh]⟩)))))
          · exact .inr (.inr (.inr (.inr (.inr (.inr
              ⟨rfl, hb, hi, hh, by simp [endSym, endBit, hb, endByte, hi, endHalf, hh, Transmitter.initial]⟩)))))
      · exact .inr (.inr (.inr (.inl ⟨rfl, hb, by simp [endSym, endBit]; exact fun h => absurd h hb⟩)))

/-- The sequencer changes nothing but the transmitter's registers. -/
theorem sequencer_eq (s : State) :
    sequencer s = s.withTx (if s.tx.busy then advance s.cfg s.tx else s.tx) := by
  unfold sequencer
  split <;> rfl

end Sys2Proof.Machine
end

