-- ==== Sys2Proof/Laws/Edge.lean ====
section
/-! SUPPORT. What one edge can do: the inversion lemma of the edge and of the step, and what happens at every edge. -/

namespace Sys2Proof.Machine

section
variable (s : State)

@[simp] theorem background_build : (background s).build = s.build := by simp [background, clearStall, sequencer_eq, dropResponse]
@[simp] theorem background_dec : (background s).dec = s.dec := by simp [background, clearStall, sequencer_eq, dropResponse]
@[simp] theorem background_mbox : (background s).mbox = s.mbox := by simp [background, clearStall, sequencer_eq, dropResponse]
@[simp] theorem background_pbMem : (background s).pbMem = s.pbMem := by simp [background, clearStall, sequencer_eq, dropResponse]
@[simp] theorem background_pbW : (background s).pbW = s.pbW := by simp [background, clearStall, sequencer_eq, dropResponse]
@[simp] theorem background_tx :
    (background s).tx = if s.tx.busy then advance s.cfg s.tx else s.tx := by
  simp only [background, clearStall, sequencer_eq, dropResponse, State.withClrCnt_tx, State.withTx_tx]
  rfl
@[simp] theorem background_clrCnt : (background s).clrCnt = s.clrCnt - 1 := by simp [background, clearStall, sequencer_eq, dropResponse]
@[simp] theorem background_rsp : (background s).rsp = { s.rsp with valid := false } := by
  simp [background, clearStall, sequencer_eq, dropResponse]
@[simp] theorem background_cmdErr : (background s).cmdErr = s.cmdErr := by simp [background, clearStall, sequencer_eq, dropResponse]
@[simp] theorem background_pins : (background s).pins = s.pins := by simp [background, clearStall, sequencer_eq, dropResponse]

@[simp] theorem clockReset_build : (clockReset s).build = s.build := rfl
@[simp] theorem clockReset_pbMem : (clockReset s).pbMem = s.pbMem := rfl
@[simp] theorem clockReset_pins : (clockReset s).pins = s.pins := rfl

end

@[simp] theorem andThen_next (s : State) (f : State → Host.Outcome State Fault Refusal) : andThen (.next s) f = f s := rfl

/-- A next state of a sequence comes from a next state of its first part. -/
theorem andThen_eq_next {o : Host.Outcome State Fault Refusal} {f : State → Host.Outcome State Fault Refusal} {t : State}
    (h : andThen o f = .next t) : ∃ u, o = .next u ∧ f u = .next t := by
  cases o with
  | next u => exact ⟨u, rfl, h⟩
  | fault r => cases h
  | refused r => cases h

/-- The tick port carries TICK rc5_in exactly when `rc5_tick = 1` (R78). -/
theorem tickEvent_eq (e : EdgeIn) : tickEvent e = if e.rc5Tick then some (.tick e.rc5In) else none := by
  have key : ∀ b p : Bool, decodeTickPort ((BitVec.ofBool b ++ BitVec.ofBool p).cast rfl) =
      if b then .ok (.tick p) else .error .noTick := by decide
  rw [tickEvent, key]
  cases e.rc5Tick <;> rfl

/-- The command port accepts `decode(cmd)` exactly when a command is presented to a ready port (R187). -/
theorem acceptedCmd_eq (e : EdgeIn) (s : State) :
    acceptedCmd e s = if e.cmdValid = true ∧ cmdReady s = true then some (decodeCmd e.cmd) else none := by
  simp [acceptedCmd, Bool.and_eq_true]

/-- The command decoder never answers a TICK. -/
theorem decodeCmd_ne_tick (w : CmdWord) (p : Bool) : decodeCmd w ≠ .tick p := by
  unfold decodeCmd
  split <;> exact Instr.noConfusion

/-- Everything an edge that answers a next state can have done: a reset, or what happens at every edge, then the accepted
command, then the tick. -/
theorem clockEdge_next_cases {e : EdgeIn} {s t : State} (h : clockEdge e s = .next t) :
    (e.rst = true ∧ t = clockReset s) ∨
    (e.rst = false ∧ ∃ u, runPort (acceptedCmd e s) (background s) = .next u ∧ runPort (tickEvent e) u = .next t) := by
  unfold clockEdge at h
  cases hr : e.rst with
  | true => rw [hr] at h; cases h; exact .inl ⟨rfl, rfl⟩
  | false => rw [hr] at h; exact .inr ⟨rfl, andThen_eq_next h⟩

/-- What a port can have done: nothing where it carries nothing, else its operation. -/
theorem runPort_next_cases {op : Option Instr} {s t : State} (h : runPort op s = .next t) :
    (op = none ∧ t = s) ∨ ∃ i, op = some i ∧ exec i s = .next t := by
  cases op with
  | none => cases h; exact .inl ⟨rfl, rfl⟩
  | some i => exact .inr ⟨i, rfl, h⟩

/-- A tick always goes on to a next state, and changes the decoder and the mailbox alone (R101). -/
theorem runPort_tick (e : EdgeIn) (s : State) :
    runPort (tickEvent e) s = .next (if e.rc5Tick then
      publishIf (tickDecoder s.cfg e.rc5In s.dec).2 (s.withDec (tickDecoder s.cfg e.rc5In s.dec).1) else s) := by
  rw [tickEvent_eq]
  cases e.rc5Tick <;> rfl

/-- A step with the next edge's inputs listed is that edge with the rest left to come. -/
theorem step_cons {s : State} {e : EdgeIn} {rest : List EdgeIn} (h : s.pins = e :: rest) :
    step s = clockEdge e (s.withPins rest) := by
  simp [step, nextInputs, consumeInputs, h]

/-- A step with nothing listed is an idle edge. -/
theorem step_nil {s : State} (h : s.pins = []) : step s = clockEdge EdgeIn.idle s := by
  obtain ⟨b, d, m, pm, pw, tx, cl, r, ce, p⟩ := s
  cases h
  rfl

@[simp] theorem cmdReady_withPins (s : State) (p : List EdgeIn) : cmdReady (s.withPins p) = cmdReady s := rfl

end Sys2Proof.Machine
end

