-- ==== Sys2Proof/Laws/PerInstr.lean ====
section
/-! SUPPORT. The family Opcode: every operation's word carries that operation's opcode in `cmd[3:0]`, and a TICK's event
has `rc5_tick = 1` (spec/30_encoding.md R71, R78). -/

namespace Sys2Proof.Laws.Opcode

/-- The encoded word shows which operation it is. -/
def Statement (i : Instr) : Prop :=
  match encode i with
  | .command w => opcodeOf i = some (opcodeField w)
  | .tickPort v => opcodeOf i = none ∧ v.getLsbD 1 = true

/-- The low part of a concatenation. -/
theorem low_append {n k : Nat} (hi : BitVec n) (lo : BitVec k) : (hi ++ lo).extractLsb' 0 k = lo := by
  apply BitVec.eq_of_getLsbD_eq
  intro i h
  simp [BitVec.getLsbD_append, h]

theorem opcodeField_formatN (op : BitVec 4) : opcodeField (formatN op) = op.toNat :=
  congrArg BitVec.toNat (low_append _ op)

theorem opcodeField_formatS (op : BitVec 4) (x y : Int) (c : Color) : opcodeField (formatS op x y c) = op.toNat :=
  congrArg BitVec.toNat (low_append _ op)

theorem opcodeField_formatC (op : BitVec 4) (c : Color) : opcodeField (formatC op c) = op.toNat :=
  congrArg BitVec.toNat (low_append _ op)

theorem nop : Statement .nop := congrArg some (opcodeField_formatN 0x0).symm
theorem take : Statement .take := congrArg some (opcodeField_formatN 0x1).symm
theorem set (x y : Int) (rgb : Color) : Statement (.set x y rgb) :=
  congrArg some (opcodeField_formatS 0x2 x y rgb).symm
theorem clear (rgb : Color) : Statement (.clear rgb) :=
  congrArg some (opcodeField_formatC 0x3 rgb).symm
theorem flush : Statement .flush := congrArg some (opcodeField_formatN 0x4).symm
theorem reserved5 : Statement .reserved5 := congrArg some (opcodeField_formatN 0x5).symm
theorem reserved6 : Statement .reserved6 := congrArg some (opcodeField_formatN 0x6).symm
theorem reserved7 : Statement .reserved7 := congrArg some (opcodeField_formatN 0x7).symm
theorem reserved8 : Statement .reserved8 := congrArg some (opcodeField_formatN 0x8).symm
theorem reserved9 : Statement .reserved9 := congrArg some (opcodeField_formatN 0x9).symm
theorem reservedA : Statement .reservedA := congrArg some (opcodeField_formatN 0xA).symm
theorem reservedB : Statement .reservedB := congrArg some (opcodeField_formatN 0xB).symm
theorem reservedC : Statement .reservedC := congrArg some (opcodeField_formatN 0xC).symm
theorem reservedD : Statement .reservedD := congrArg some (opcodeField_formatN 0xD).symm
theorem reservedE : Statement .reservedE := congrArg some (opcodeField_formatN 0xE).symm
theorem reservedF : Statement .reservedF := congrArg some (opcodeField_formatN 0xF).symm
theorem tick (p : Bool) : Statement (.tick p) := ⟨rfl, by cases p <;> rfl⟩

end Sys2Proof.Laws.Opcode
end

