-- ==== Sys2Proof/Laws/Runs.lean ====
section
/-! SUPPORT. Runs of edges and of steps, one edge at a time, and what is published at an edge. -/

namespace Sys2Proof.Machine

@[simp] theorem steps_zero (s : State) : steps 0 s = .next s := rfl

@[simp] theorem steps_succ (k : Nat) (s : State) : steps (k + 1) s = andThen (step s) (steps k) := rfl

@[simp] theorem edges_nil (s : State) : edges [] s = .next s := rfl

@[simp] theorem edges_cons (e : EdgeIn) (es : List EdgeIn) (s : State) :
    edges (e :: es) s = andThen (clockEdge e s) (edges es) := rfl

@[simp] theorem alongEdges_nil (P : EdgeIn → State → Prop) (s : State) : alongEdges P [] s := trivial

@[simp] theorem alongEdges_cons (P : EdgeIn → State → Prop) (e : EdgeIn) (es : List EdgeIn) (s : State) :
    alongEdges P (e :: es) s ↔ P e s ∧ ∀ t, clockEdge e s = .next t → alongEdges P es t := Iff.rfl

@[simp] theorem publishedAt_reset {e : EdgeIn} (h : e.rst = true) (s : State) : publishedAt e s = none := by
  simp [publishedAt, h]

theorem publishedAt_tick {e : EdgeIn} (hr : e.rst = false) (ht : e.rc5Tick = true) (s : State) :
    publishedAt e s = (tickDecoder s.cfg e.rc5In s.dec).2 := by
  simp [publishedAt, hr, ht]

theorem publishedAt_no_tick {e : EdgeIn} (h : e.rc5Tick = false) (s : State) : publishedAt e s = none := by
  simp [publishedAt, h]

/-- An invariant of every edge of a run holds at its end. -/
theorem edges_induct {P : EdgeIn → State → Prop} {I : State → Prop}
    (hstep : ∀ e s t, I s → P e s → clockEdge e s = .next t → I t) :
    ∀ (es : List EdgeIn) (s t : State), I s → alongEdges P es s → edges es s = .next t → I t
  | [], _, _, hs, _, h => by cases h; exact hs
  | e :: es, s, t, hs, hp, h => by
    obtain ⟨u, hu, ht⟩ := andThen_eq_next h
    exact edges_induct hstep es u t (hstep e s u hs hp.1 hu) (hp.2 u hu) ht

end Sys2Proof.Machine
end

