-- ==== Sys2Proof/Tests/Slice0.lean ====
section
/-! SUPPORT. The model's own tests. Expected values are the spec's: its encodings (spec/30_encoding.md), its vectors
(spec/95_test_vectors.md, named V-…) and the examples of its rules. Then, for each statement with hypotheses, a witness: a
concrete state and operands that meet all of them together. -/

namespace Sys2Proof.Tests

open Sys2Proof Sys2Proof.Machine

/-! ## Helpers -/

/-- A reading of the next state, none where the machine stops. -/
def after {α β : Type} (o : Host.Outcome α Fault Refusal) (f : α → β) : Option β :=
  match o with
  | .next s => some (f s)
  | .fault _ => none
  | .refused _ => none

/-- The fault at which the machine stops, if it stops at one. -/
def faultOf {α : Type} (o : Host.Outcome α Fault Refusal) : Option Fault :=
  match o with
  | .next _ => none
  | .fault f => some f
  | .refused _ => none

/-- The reset state in configuration TV. -/
def tv : State := State.reset

/-- The smallest matrix, on a 2 MHz clock: N = 2, one cycle a symbol, and a CLEAR that holds the port for 3 cycles. -/
def small : Build where
  cfg := { Config.ofRates 2 { k0 := .G, k1 := .R, k2 := .B } 2000000 4500 with clearLat := 3 }
  admitted := by decide

/-- The colour black. -/
def black : Color := { r := 0, g := 0, b := 0 }

/-- The small matrix after every slot has been written. -/
def filled : State := fillSlots black 4 (State.resetOf small)

/-- The small matrix in the first cycle of a transmission. -/
def busy : State := filled.withTx startTx

/-- Configuration TV with given decoder registers. -/
def withDecoder (acc : AccWord) (lvl : Bool) (ph : Phase) (cnt : Count) : State :=
  tv.withDec { acc := acc, lvl := lvl, phase := ph, cnt := cnt }

/-- The same with the count given as a number. -/
def atCnt (acc : AccWord) (lvl : Bool) (ph : Phase) (k : Nat) : State := withDecoder acc lvl ph (BitVec.ofNat 8 k)

/-- Configuration TV with a word waiting. -/
def waiting (w : RcWord) : State := tv.withMbox { valid := true, word := w }

/-- Ports that carry a command and nothing else. -/
def cmdIn (w : CmdWord) : EdgeIn := EdgeIn.ofPortWord (.command w)

/-- Ports that carry a tick and nothing else. -/
def tickIn (p : Bool) : EdgeIn := { EdgeIn.idle with rc5Tick := true, rc5In := p }

/-- Ports that carry a reset beside a FLUSH and a tick. -/
def rstIn : EdgeIn := { rst := true, cmdValid := true, cmd := 4, rc5Tick := true, rc5In := true }

/-- The decoder registers after TICK `p`. -/
def tickDec (p : Bool) (s : State) : Option (AccWord × Bool × Phase × Count) :=
  after (exec (.tick p) s) fun t => (t.dec.acc, t.dec.lvl, t.dec.phase, t.dec.cnt)

/-! ## WellFormed and admission refuse -/

theorem test_wf_refuses_x_128 : (Instr.set 128 0 black).wf = false := by decide
theorem test_wf_refuses_x_below_minus_128 : (Instr.set (-129) 0 black).wf = false := by decide
theorem test_wf_refuses_y_128 : (Instr.set 0 128 black).wf = false := by decide
theorem test_wf_refuses_y_below_minus_128 : (Instr.set 0 (-129) black).wf = false := by decide
/-- V-CFG: N = 3, N = 128. -/
theorem test_w1_refuses_odd_n : ({ Config.tv with n := 3 } : Config).refusedBy = some .w1 := by decide
theorem test_w1_refuses_n_128 : ({ Config.tv with n := 128 } : Config).refusedBy = some .w1 := by decide
theorem test_w2_refuses_no_symbol_b : ({ Config.tv with symB := 0 } : Config).refusedBy = some .w2 := by decide
/-- V-CFG: 1 MHz. -/
theorem test_w3_refuses_1_mhz :
    (Config.ofRates 4 { k0 := .G, k1 := .R, k2 := .B } 1000000 4500).refusedBy = some .w3 := by decide
/-- V-CFG: PULSE_MIN = PULSE_MID. -/
theorem test_w4_refuses_equal_thresholds : ({ Config.tv with pulseMin := 6 } : Config).refusedBy = some .w4 := by decide
theorem test_w4_refuses_max_255 : ({ Config.tv with pulseMax := 255 } : Config).refusedBy = some .w4 := by decide
theorem test_w5_refuses_bit_14 : ({ Config.tv with cmd6SrcBit := 14 } : Config).refusedBy = some .w5 := by decide
theorem test_w6_refuses_a_channel_twice :
    ({ Config.tv with channelOrder := { k0 := .G, k1 := .R, k2 := .G } } : Config).refusedBy = some .w6 := by decide
theorem test_w7_refuses_no_latency : ({ Config.tv with clearLat := 0 } : Config).refusedBy = some .w7 := by decide
theorem test_w8_refuses_no_tick_rate : ({ Config.tv with fTickHz := 0 } : Config).refusedBy = some .w8 := by decide
/-- R241: at 31250 Hz the thresholds are 22, 44 and 67 ticks; V-RC5-TH: at 4500 Hz they are 3, 6 and 10. -/
theorem test_thresholds :
    [31250, 4500].map (fun f => (Config.threshold f 1778000 40, Config.threshold f 1778000 80,
      Config.threshold f 1778000 120)) = [(22, 44, 67), (3, 6, 10)] := by decide
/-- R236: in configuration TV, G = 89 ticks. -/
theorem test_publish_gap : Config.tv.publishGap = 89 := by decide

/-! ## Decoding: one word written out for each constructor (R71 to R74, R78) -/

theorem test_decode_nop : decodeTableWord 48 0x000000000000 = some .nop := by decide
theorem test_decode_take : decodeTableWord 48 0x000000000001 = some .take := by decide
/-- V-SET-2: `SET 1, 0, #0000FF`, field by field: unused, rgb, y, x, opcode. -/
theorem test_decode_set :
    decode (.command ((0b0000#4 ++ 0x0000FF#24 ++ 0b00000000#8 ++ 0b00000001#8 ++ 0b0010#4).cast rfl)) =
      .ok (.set 1 0 { r := 0, g := 0, b := 0xFF }) := by decide
/-- V-SET-5: the field 0xFF is the column −1. -/
theorem test_decode_set_negative : decodeTableWord 48 0x0FFFFFF02FF2 =
    some (.set (-1) 2 { r := 0xFF, g := 0xFF, b := 0xFF }) := by decide
theorem test_decode_clear :
    decode (.command ((0b0000#4 ++ 0x102030#24 ++ 0x0000#16 ++ 0b0011#4).cast rfl)) =
      .ok (.clear { r := 0x10, g := 0x20, b := 0x30 }) := by decide
theorem test_decode_flush : decodeTableWord 48 0x000000000004 = some .flush := by decide
theorem test_decode_reserved5 : decodeTableWord 48 0x000000000005 = some .reserved5 := by decide
theorem test_decode_reserved6 : decodeTableWord 48 0x000000000006 = some .reserved6 := by decide
theorem test_decode_reserved7 : decodeTableWord 48 0x000000000007 = some .reserved7 := by decide
theorem test_decode_reserved8 : decodeTableWord 48 0x000000000008 = some .reserved8 := by decide
theorem test_decode_reserved9 : decodeTableWord 48 0x000000000009 = some .reserved9 := by decide
theorem test_decode_reservedA : decodeTableWord 48 0x00000000000A = some .reservedA := by decide
theorem test_decode_reservedB : decodeTableWord 48 0x00000000000B = some .reservedB := by decide
theorem test_decode_reservedC : decodeTableWord 48 0x00000000000C = some .reservedC := by decide
theorem test_decode_reservedD : decodeTableWord 48 0x00000000000D = some .reservedD := by decide
theorem test_decode_reservedE : decodeTableWord 48 0x00000000000E = some .reservedE := by decide
theorem test_decode_reservedF : decodeTableWord 48 0xFFFFFFFFFFFF = some .reservedF := by decide
theorem test_decode_tick : decodeTableWord 2 0b11 = some (.tick true) ∧ decodeTableWord 2 0b01 = none := by decide
/-- V-SET-1's note: unused bits set, the same operation. -/
theorem test_decode_ignores_unused :
    decodeCmd 0xFFF000000002 = .set 0 0 { r := 0xFF, g := 0, b := 0 } := by decide
/-- The words of V-SET-3 and V-SET-7. -/
theorem test_encode_set :
    encode (.set 2 3 { r := 0, g := 0xFF, b := 0 }) = .command 0x000FF0003022 ∧
      encode (.set 127 (-128) { r := 0xFF, g := 0xFF, b := 0xFF }) = .command 0x0FFFFFF807F2 := by decide
/-- The text of R84: V-SET-5 and a command beside a tick. -/
theorem test_assemble :
    (assembleLine Config.tv "SET -1, 2, #FFFFFF ; out of range".toList).map (·.map Stmt.edge) =
        some [cmdIn 0x0FFFFFF02FF2] ∧
      (assembleLine Config.tv "TAKE || TICK 0".toList).map (·.map Stmt.edge) =
        some [{ cmdIn 1 with rc5Tick := true }] := by decide

/-! ## One step of each operation -/

/-- V-NOP-1. -/
theorem test_nop : after (step (tv.withFetchWord 48 0)) (fun t => t) = some tv := by decide
/-- V-TAKE-2. -/
theorem test_take_word :
    after (exec .take (waiting 0x3043)) (fun t => (t.rsp.valid, t.rsp.data, t.mbox.valid, t.mbox.word)) =
      some (true, 0xC3, false, 0x3043) := by decide
/-- V-TAKE-1. -/
theorem test_take_none :
    after (step (tv.withFetchWord 48 1)) (fun t => (t.rsp.valid, t.rsp.data)) = some (true, 0x00) := by decide
/-- V-SET-2: slot 7, bytes 21 to 23; byte 24 stays unwritten. -/
theorem test_set_odd_column :
    after (step (tv.withFetchWord 48 0x00000FF00012)) (fun t => (t.pbMem, t.pbW)) =
      some ([(21, 0x00), (22, 0x00), (23, 0xFF)], [21, 22, 23]) := by decide
/-- V-SET-8: `SET 3, 3, #123456`, slot 12. -/
theorem test_set_wiring_order :
    after (exec (.set 3 3 { r := 0x12, g := 0x34, b := 0x56 }) tv) (fun t => t.pbMem) =
      some [(36, 0x34), (37, 0x12), (38, 0x56)] := by decide
/-- V-CLR-1, on the small matrix: every slot is 20 10 30, and the port is held (V-CLR-2). -/
theorem test_clear :
    after (exec (.clear { r := 0x10, g := 0x20, b := 0x30 }) (State.resetOf small)) (fun t => (t.pbMem, t.clrCnt)) =
      some ([(0, 0x20), (1, 0x10), (2, 0x30), (3, 0x20), (4, 0x10), (5, 0x30), (6, 0x20), (7, 0x10), (8, 0x30),
        (9, 0x20), (10, 0x10), (11, 0x30)], 2) := by decide
/-- V-FLUSH-9. -/
theorem test_flush_unwritten :
    after (exec (.set 0 0 { r := 0, g := 0, b := 1 }) tv) (fun t => faultOf (exec .flush t)) =
      some (some (.unwrittenPixel 3)) := by decide
/-- R141: the cycle after the accepting edge shows line 0 high. -/
theorem test_flush_starts :
    after (step (filled.withFetchWord 48 4)) (fun t => (t.tx.busy, wsOut t 0, wsOut t 1)) =
      some (true, some true, some false) := by decide
/-- V-FLUSH-11's last step: bit 7 ends in the last cycle of symbol C. -/
theorem test_sequencer_next_bit :
    advance Config.tv { busy := true, half := 0, idx := 0, bit := 7, sym := .C, cyc := 7 } =
      { busy := true, half := 0, idx := 0, bit := 6, sym := .A, cyc := 0 } := by decide
/-- V-RES-1. -/
theorem test_reserved5 : after (step (tv.withFetchWord 48 5)) (fun t => t) = some (tv.withCmdErr true) := by decide
theorem test_reserved6 : after (exec .reserved6 tv) (fun t => t.cmdErr) = some true := by decide
theorem test_reserved7 : after (exec .reserved7 tv) (fun t => t.cmdErr) = some true := by decide
theorem test_reserved8 : after (exec .reserved8 tv) (fun t => t.cmdErr) = some true := by decide
theorem test_reserved9 : after (exec .reserved9 tv) (fun t => t.cmdErr) = some true := by decide
theorem test_reservedA : after (exec .reservedA tv) (fun t => t.cmdErr) = some true := by decide
theorem test_reservedB : after (exec .reservedB tv) (fun t => t.cmdErr) = some true := by decide
theorem test_reservedC : after (exec .reservedC tv) (fun t => t.cmdErr) = some true := by decide
theorem test_reservedD : after (exec .reservedD tv) (fun t => t.cmdErr) = some true := by decide
theorem test_reservedE : after (exec .reservedE tv) (fun t => t.cmdErr) = some true := by decide
/-- V-RES-2. -/
theorem test_reservedF :
    after (step (tv.withFetchWord 48 0xFFFFFFFFFFFF)) (fun t => (t.cmdErr, t.pbMem)) = some (true, []) := by decide
/-- V-TICK-02, from the tick port. -/
theorem test_tick_from_port :
    after (step (tv.withFetchWord 2 0b11)) (fun t => (t.dec.acc, t.dec.lvl, t.dec.cnt)) = some (1, true, 0) := by decide
/-- V-TICK-19. -/
theorem test_tick_timeout_then_start :
    tickDec true (withDecoder 0x3043 false .bnd 10) = some (1, true, .mid, 0) ∧
      after (exec (.tick true) (withDecoder 0x3043 false .bnd 10)) (fun t => (t.mbox.valid, t.mbox.word)) =
        some (true, 0x3043) := by decide
/-- V-TICK-06, V-TICK-09, V-TICK-10, V-TICK-14, V-TICK-24. -/
theorem test_tick_classes :
    [(true, withDecoder 1 false .mid 2), (false, withDecoder 1 true .mid 6), (false, withDecoder 1 true .bnd 3),
        (false, withDecoder 1 true .bnd 6), (false, withDecoder 0x4000 true .bnd 3)].map (fun q => tickDec q.1 q.2) =
      [some (1, true, .bnd, 0), some (2, false, .mid, 0), some (2, false, .mid, 0), some (0, false, .bnd, 0),
        some (0x4000, false, .mid, 0)] := by decide
/-- V-TAKE-3: a TAKE and a publishing tick at one edge. -/
theorem test_take_beside_publish :
    after (clockEdge { cmdIn 1 with rc5Tick := true } (withDecoder 0x3043 false .bnd 10))
      (fun t => (t.rsp.data, t.mbox.valid, t.mbox.word)) = some (0x00, true, 0x3043) := by decide
/-- R175: the serpentine map for N = 4, rows top to bottom. -/
theorem test_serpentine_map :
    [3, 2, 1, 0].map (fun y => [0, 1, 2, 3].map fun x => slot Config.tv x y) =
      [[3, 4, 11, 12], [2, 5, 10, 13], [1, 6, 9, 14], [0, 7, 8, 15]] := by decide
/-- R230, R232: a reset edge beside a FLUSH and a tick, while sending. -/
theorem test_reset_edge :
    after (clockEdge rstIn (busy.withCmdErr true)) (fun t => (t.tx, t.cmdErr, t.pbW, t.dec.cnt)) =
      some (Transmitter.initial, false, [], 255) := by decide

/-! ## Witnesses: for each statement with hypotheses, values that meet all of them -/

/-- The state a run of the decoder leaves, for witnesses about edges. -/
def ready (e : EdgeIn) (s : State) : State := s.withPins [e]

/-- A colour. -/
def teal : Color := { r := 0x10, g := 0x20, b := 0x30 }

theorem witness_DecodeEncodeRoundTrip :
    (Instr.set (-128) 127 teal).wf = true ∧ (Instr.clear teal).wf = true ∧ (Instr.tick false).wf = true := by decide

/-- Two words agree where `UnusedBitsAreIgnored` asks it. -/
def agree (v w : CmdWord) : Bool :=
  decide (opcodeField v = opcodeField w) && (List.range 44).all fun i =>
    !(decide (4 ≤ i ∧ i < 20 → opcodeField w = 2) &&
      decide (20 ≤ i ∧ i < 44 → opcodeField w = 2 ∨ opcodeField w = 3)) || v.getLsbD i == w.getLsbD i

theorem agree_spec {v w : CmdWord} (h : agree v w = true) : opcodeField v = opcodeField w ∧
    ∀ i, (4 ≤ i ∧ i < 20 → opcodeField w = 2) → (20 ≤ i ∧ i < 44 → opcodeField w = 2 ∨ opcodeField w = 3) →
      i < 44 → v.getLsbD i = w.getLsbD i := by
  simp only [agree, Bool.and_eq_true, List.all_eq_true, List.mem_range, decide_eq_true_eq] at h
  refine ⟨h.1, fun i h1 h2 h3 => ?_⟩
  have := h.2 i h3
  rw [decide_eq_true h1, decide_eq_true h2] at this
  simpa using this

/-- A SET whose bits 47:44 differ, a CLEAR whose bits 47:44 and 19:4 differ, a TAKE whose bits 47:4 differ; by
`agree_spec` each pair meets the hypotheses. -/
theorem witness_UnusedBitsAreIgnored :
    agree 0xFFF000000002 0x0FF000000002 = true ∧ agree 0xF102030FFFF3 0x010203000003 = true ∧
      agree 0xFFFFFFFFFFF1 0x000000000001 = true := by decide

theorem witness_DefaultTimingIsAdmittedOrRefused :
    (16000000 : Nat) ∈ [16000000, 8000000, 20000000, 2000000] ∧ (1000000 : Nat) ∈ [3000000, 1000000] := by decide

theorem witness_ResetEdgeMasksEverything :
    (busy.withPins [rstIn, cmdIn 1]).pins = rstIn :: [cmdIn 1] ∧ rstIn.rst = true := by decide

theorem witness_StepRunsTheDecodedInstruction :
    ((ready (cmdIn 1) tv).pins = EdgeIn.ofPortWord (.command 1) :: [] ∧ cmdReady (ready (cmdIn 1) tv) = true ∧
        decode (.command 1) = .ok .take) ∧
      ((ready (tickIn true) busy).pins = EdgeIn.ofPortWord (.tickPort 0b11) :: [] ∧
        decode (.tickPort 0b11) = .ok (.tick true)) := by decide

/-- A TAKE beside a tick; a FLUSH of unwritten bytes beside a tick. -/
theorem witness_StepRunsCommandThenTick :
    ∀ w ∈ [1, 4],
      (ready { cmdIn (BitVec.ofNat 48 w) with rc5Tick := true } tv).pins =
          { cmdIn (BitVec.ofNat 48 w) with rc5Tick := true } :: [] ∧
        cmdReady (ready { cmdIn (BitVec.ofNat 48 w) with rc5Tick := true } tv) = true ∧
        (after (exec (decodeCmd (BitVec.ofNat 48 w)) (background (tv.withPins []))) (fun _ => ())).isSome =
          decide (w = 1) ∧
        (faultOf (exec (decodeCmd (BitVec.ofNat 48 w)) (background (tv.withPins [])))).isSome = decide (w = 4) := by
  decide

/-- An idle edge, and an edge at which a busy port holds a command off. -/
theorem witness_BackgroundOfAnEdge :
    (EdgeIn.idle.rst = false ∧ acceptedCmd EdgeIn.idle tv = none ∧ EdgeIn.idle.rc5Tick = false) ∧
      ((cmdIn 1).rst = false ∧ acceptedCmd (cmdIn 1) busy = none ∧ (cmdIn 1).rc5Tick = false) := by decide

theorem witness_UnacceptedCommandHasNoEffect :
    cmdReady busy = false ∧ cmdReady (tv.withClrCnt 1) = false := by decide

theorem witness_EdgeIsTheSimultaneousMerge :
    (cmdIn 4).rst = false ∧ acceptedCmd (cmdIn 4) filled = some .flush ∧ ∀ a < filled.cfg.bufBytes, a ∈ filled.pbW := by
  decide

/-- A step that stops, for the first clause. -/
theorem witness_OnlyUnwrittenFlushStops :
    faultOf (step (ready (cmdIn 4) tv)) = some (.unwrittenPixel 0) := by decide

theorem witness_QuietEdgeChangesNothing :
    (ready EdgeIn.idle tv).pins = EdgeIn.idle :: [] ∧ EdgeIn.idle.rst = false ∧ EdgeIn.idle.cmdValid = false ∧
      EdgeIn.idle.rc5Tick = false ∧ tv.tx.busy = false ∧ tv.clrCnt = 0 ∧ tv.rsp.valid = false := by decide

theorem witness_NopChangesNothing : decodeCmd (cmdIn 0x000000000000).cmd = .nop := by decide

theorem witness_ReservedOpcodesOnlySetCmdErr : Instr.reservedF ∈ [Instr.reserved5, .reserved6, .reserved7, .reserved8,
    .reserved9, .reservedA, .reservedB, .reservedC, .reservedD, .reservedE, .reservedF] := by decide

/-- A publish, an idle edge, a TAKE that returns the word; and then an idle edge and the TAKE that returns none (V-TAKE-2). -/
theorem witness_TakeDeliversAWordOnce :
    ∃ t u v w x : State,
      (publishedAt (tickIn false) (withDecoder 0x3043 false .bnd 10) = some 0x3043 ∧
        clockEdge (tickIn false) (withDecoder 0x3043 false .bnd 10) = .next t ∧
        alongEdges (fun e s => e.rst = false ∧ publishedAt e s = none ∧ acceptedCmd e s ≠ some .take) [EdgeIn.idle] t ∧
        edges [EdgeIn.idle] t = .next u ∧ (cmdIn 1).rst = false ∧ acceptedCmd (cmdIn 1) u = some .take ∧
        clockEdge (cmdIn 1) u = .next v) ∧
      publishedAt (cmdIn 1) u = none ∧ alongEdges (fun e s => publishedAt e s = none) [EdgeIn.idle] v ∧
        edges [EdgeIn.idle] v = .next w ∧ acceptedCmd (cmdIn 1) w = some .take ∧ clockEdge (cmdIn 1) w = .next x :=
  ⟨_, _, _, _, _, ⟨by decide, rfl, ⟨by decide, fun _ _ => trivial⟩, rfl, rfl, by decide, rfl⟩, by decide,
    ⟨by decide, fun _ _ => trivial⟩, rfl, by decide, rfl⟩

/-- The four corners of the matrix, and the three bytes of a slot. -/
theorem witness_SetWritesItsSlotAlone :
    ∀ x ∈ [(0 : Int), 3], ∀ y ∈ [(0 : Int), 3], 0 ≤ x ∧ x < tv.cfg.n ∧ 0 ≤ y ∧ y < tv.cfg.n := by decide

/-- x = −1, x = N and y = N, each accepted at an edge (V-SET-5, V-SET-4, V-SET-6). -/
theorem witness_OutOfRangeSetLeavesThePixels :
    ∀ p ∈ [((-1 : Int), (2 : Int), 0x0FFFFFF02FF2), (4, 0, 0x0FFFFFF00042), (0, 4, 0x0FFFFFF04002)],
      ¬((0 ≤ p.1 ∧ p.1 < tv.cfg.n) ∧ (0 ≤ p.2.1 ∧ p.2.1 < tv.cfg.n)) ∧ (cmdIn (BitVec.ofNat 48 p.2.2)).rst = false ∧
        acceptedCmd (cmdIn (BitVec.ofNat 48 p.2.2)) tv = some (.set p.1 p.2.1 { r := 0xFF, g := 0xFF, b := 0xFF }) := by decide

/-- The invariant holds of the filled small matrix. -/
theorem filled_inv : filled.Inv where
  memSorted := by decide
  memInRange := by decide
  marksSorted := by decide
  marksListed := by decide
  idxInHalf := by decide
  cycInSym := by decide
  idlePosition := by decide
  busyWritten := by decide
  busyNoStall := by decide
  stallInRange := by decide
  collectingFresh := by decide
  mailboxStart := by decide
  responseForm := by decide

/-- And of the same matrix while it is sent. -/
theorem busy_inv : busy.Inv where
  memSorted := by decide
  memInRange := by decide
  marksSorted := by decide
  marksListed := by decide
  idxInHalf := by decide
  cycInSym := by decide
  idlePosition := by decide
  busyWritten := by decide
  busyNoStall := by decide
  stallInRange := by decide
  collectingFresh := by decide
  mailboxStart := by decide
  responseForm := by decide

theorem witness_LaterSetWins :
    filled.Inv ∧ ∃ t : State, exec (.set 0 1 teal) filled = .next t := ⟨filled_inv, _, rfl⟩

/-- With CLEAR_LAT = 3: the first and the last edge of the stall. -/
theorem witness_ClearHoldsThePort :
    acceptedCmd (nextInputs (ready (cmdIn 0x010203000003) filled)) (ready (cmdIn 0x010203000003) filled) =
        some (.clear teal) ∧
      (ready (cmdIn 0x010203000003) filled).noReset 3 ∧ (0 : Nat) < filled.cfg.clearLat ∧ 2 < filled.cfg.clearLat := by
  refine ⟨by decide, ?_, by decide, by decide⟩
  unfold State.noReset
  decide

theorem witness_FlushStartsTheTransmission : ∀ a < filled.cfg.bufBytes, a ∈ filled.pbW := by decide

/-- Nothing written, and everything but the last byte written. -/
theorem witness_FlushOfUnwrittenByteFaults :
    (0 < tv.cfg.bufBytes ∧ 0 ∉ tv.pbW) ∧
      (11 < filled.cfg.bufBytes ∧ 11 ∉ filled.pbW.dropLast ∧ ∀ b < 11, b ∈ filled.pbW.dropLast) := by decide

/-! The classes of an edge, at the ends of their ranges in configuration TV (thresholds 3, 6, 10). -/

theorem witness_QuietTickOnlyCounts :
    ∀ k ∈ [0, 9],
      (false ^^ tv.cfg.rc5Invert) = (atCnt 1 false .mid k).dec.lvl ∧
      min ((atCnt 1 false .mid k).dec.cnt.toNat + 1) 255 ≤ tv.cfg.pulseMax := by
  decide

theorem witness_TimeoutPublishesOrDiscards :
    ∀ k ∈ [10, 255],
      (false ^^ tv.cfg.rc5Invert) = (atCnt 0x3043 false .bnd k).dec.lvl ∧
      tv.cfg.pulseMax < min ((atCnt 0x3043 false .bnd k).dec.cnt.toNat + 1) 255 := by
  decide

theorem witness_TimeoutRunsBeforeTheEdge :
    ∀ k ∈ [10, 255],
      (true ^^ tv.cfg.rc5Invert) ≠ (atCnt 0x3043 false .bnd k).dec.lvl ∧
      tv.cfg.pulseMax < min ((atCnt 0x3043 false .bnd k).dec.cnt.toNat + 1) 255 := by
  decide

theorem witness_GlitchDiscardsTheWord :
    ∀ k ∈ [0, 1],
      (true ^^ tv.cfg.rc5Invert) ≠ (atCnt 1 false .mid k).dec.lvl ∧
      min ((atCnt 1 false .mid k).dec.cnt.toNat + 1) 255 < tv.cfg.pulseMin := by
  decide

theorem witness_IdleEdgeStartsAWord :
    ∀ k ∈ [2, 255],
      (true ^^ tv.cfg.rc5Invert) ≠ (atCnt 0 false .mid k).dec.lvl ∧ (atCnt 0 false .mid k).dec.acc = 0 ∧
      tv.cfg.pulseMin ≤ min ((atCnt 0 false .mid k).dec.cnt.toNat + 1) 255 := by
  decide

theorem witness_ShortAfterMidIsABoundary :
    ∀ k ∈ [2, 5],
      (false ^^ tv.cfg.rc5Invert) ≠ (atCnt 1 true .mid k).dec.lvl ∧ (atCnt 1 true .mid k).dec.acc ≠ 0 ∧
      (atCnt 1 true .mid k).dec.phase = .mid ∧
      tv.cfg.pulseMin ≤ min ((atCnt 1 true .mid k).dec.cnt.toNat + 1) 255 ∧
      min ((atCnt 1 true .mid k).dec.cnt.toNat + 1) 255 ≤ tv.cfg.pulseMid := by
  decide

theorem witness_ShortAfterBoundaryShifts :
    ∀ k ∈ [2, 5],
      (false ^^ tv.cfg.rc5Invert) ≠ (atCnt 1 true .bnd k).dec.lvl ∧ (atCnt 1 true .bnd k).dec.acc ≠ 0 ∧
      (atCnt 1 true .bnd k).dec.phase = .bnd ∧
      tv.cfg.pulseMin ≤ min ((atCnt 1 true .bnd k).dec.cnt.toNat + 1) 255 ∧
      min ((atCnt 1 true .bnd k).dec.cnt.toNat + 1) 255 ≤ tv.cfg.pulseMid := by
  decide

theorem witness_LongAfterMidShifts :
    ∀ k ∈ [6, 9],
      (false ^^ tv.cfg.rc5Invert) ≠ (atCnt 1 true .mid k).dec.lvl ∧ (atCnt 1 true .mid k).dec.acc ≠ 0 ∧
      (atCnt 1 true .mid k).dec.phase = .mid ∧
      tv.cfg.pulseMid < min ((atCnt 1 true .mid k).dec.cnt.toNat + 1) 255 ∧
      min ((atCnt 1 true .mid k).dec.cnt.toNat + 1) 255 ≤ tv.cfg.pulseMax := by
  decide

theorem witness_LongAfterBoundaryIsMalformed :
    ∀ k ∈ [6, 9],
      (false ^^ tv.cfg.rc5Invert) ≠ (atCnt 1 true .bnd k).dec.lvl ∧ (atCnt 1 true .bnd k).dec.acc ≠ 0 ∧
      (atCnt 1 true .bnd k).dec.phase = .bnd ∧
      tv.cfg.pulseMid < min ((atCnt 1 true .bnd k).dec.cnt.toNat + 1) 255 ∧
      min ((atCnt 1 true .bnd k).dec.cnt.toNat + 1) 255 ≤ tv.cfg.pulseMax := by
  decide

/-- One value for each clause, at its bound. -/
theorem witness_ShifterNeverLosesABit :
    (0x3FFF : AccWord).toNat < 2 ^ 14 ∧ 2 ^ 13 ≤ (0x2000 : AccWord).toNat ∧ 2 ^ 14 ≤ (0x4000 : AccWord).toNat ∧
      2 ^ 14 ≤ (withDecoder 0x7FFF false .bnd 3).dec.acc.toNat := by decide

/-- A TAKE alone, a publish beside it, and neither. -/
theorem witness_TakeAndPublishMerge :
    (∃ t, clockEdge { cmdIn 1 with rc5Tick := true } (withDecoder 0x3043 false .bnd 10) = .next t) ∧
      (acceptedCmd { cmdIn 1 with rc5Tick := true } (withDecoder 0x3043 false .bnd 10) = some .take ∧
        (tickDecoder tv.cfg false (withDecoder 0x3043 false .bnd 10).dec).2 = some 0x3043) ∧
      (∃ t, clockEdge EdgeIn.idle (waiting 0x3043) = .next t) ∧ EdgeIn.idle.rc5Tick = false :=
  ⟨⟨_, rfl⟩, by decide, ⟨_, rfl⟩, by decide⟩

theorem witness_ResponseShowsForOneCycle :
    ((cmdIn 1).rst = false ∧ acceptedCmd (cmdIn 1) tv = some .take ∧ ∃ t, clockEdge (cmdIn 1) tv = .next t) ∧
      (acceptedCmd EdgeIn.idle tv ≠ some .take ∧ ∃ t, clockEdge EdgeIn.idle tv = .next t) :=
  ⟨⟨by decide, by decide, _, rfl⟩, by decide, _, rfl⟩

theorem witness_QuietLineSettles : 255 ≤ 255 := by decide

/-- The word 0x3043 at 4 ticks a half-bit, met by the decoder as reset leaves it (V-RC5-F1). -/
theorem witness_FrameIsDecoded :
    (0x3043 : RcWord).getLsbD 13 = true ∧
      intervalsFit tv.cfg 0x3043
        (fun k => if (0x3043 : RcWord).getLsbD k = (0x3043 : RcWord).getLsbD (k + 1) then 4 else 8) (fun _ => 4) 4 ∧
      tv.dec.lvl = false ∧ tv.cfg.pulseMax < min (tv.dec.cnt.toNat + 1) 255 := by
  refine ⟨by decide, ?_, by decide, by decide⟩
  unfold intervalsFit
  decide

/-- The other way a frame may be met: idle, at `PULSE_MIN` ticks after the last edge. -/
theorem witness_FrameIsDecoded_idle :
    (withDecoder 0 false .mid 2).dec.acc = 0 ∧ tv.cfg.pulseMin ≤ min ((withDecoder 0 false .mid 2).dec.cnt.toNat + 1) 255 := by
  decide

theorem witness_FrameReachesTheMailbox :
    (0x3043 : RcWord).extractLsb' 12 2 = 0b11#2 ∧ tv.dec.acc = 0 ∧ tv.dec.lvl = false ∧ tv.cfg.pulseMin ≤ 4 ∧
      4 ≤ tv.cfg.pulseMid ∧ tv.cfg.pulseMid < 2 * 4 ∧ 2 * 4 ≤ tv.cfg.pulseMax ∧
      ∃ s : State, s.dec = tv.dec ∧ s.build = tv.build ∧
        s.pins = (rc5Frame s.cfg 0x3043 4 ++ rc5Idle s.cfg (s.cfg.pulseMax + 2)).map Stmt.edge :=
  ⟨by decide, by decide, by decide, by decide, by decide, by decide, by decide,
    tv.withPins ((rc5Frame tv.cfg 0x3043 4 ++ rc5Idle tv.cfg (tv.cfg.pulseMax + 2)).map Stmt.edge), rfl, rfl, rfl⟩

/-- No tick after the publish, and G − 1 of them. -/
theorem witness_PublishesAreGTicksApart :
    (tickDecoder tv.cfg false (withDecoder 0x3043 false .bnd 10).dec).2 = some 0x3043 ∧
      ([] : List Bool).length < tv.cfg.publishGap ∧ (List.replicate 88 false).length < tv.cfg.publishGap := by decide

/-- The same tick beside a TAKE in one state and during a transmission in the other. -/
theorem witness_DecoderDependsOnTicksAlone :
    ({ cmdIn 1 with rc5Tick := true } : EdgeIn).rc5Tick = (tickIn false).rc5Tick ∧
      tv.build = (tv.withTx startTx).build ∧ tv.dec = (tv.withTx startTx).dec ∧
      (∃ t, clockEdge { cmdIn 1 with rc5Tick := true } tv = .next t) ∧
      ∃ t, clockEdge (tickIn false) (tv.withTx startTx) = .next t :=
  ⟨rfl, rfl, rfl, ⟨_, rfl⟩, _, rfl⟩

/-- A state for each clause. -/
theorem witness_LinesShowTheSelectedSymbol :
    tv.tx.busy = false ∧ busy.tx.half ≠ 1 ∧ (busy.tx.busy = true ∧ busy.tx.half = 0 ∧ busy.tx.sym = .A) ∧
      (busy.withTx { startTx with half := 1, sym := .C }).tx.sym = .C ∧
      busy.pbMem.read (0 * busy.cfg.halfBytes + (busy.withTx { startTx with sym := .B }).tx.idx) = some 0 := by decide

/-- An accepted FLUSH of the small matrix, at the first and the last cycle of its transmission of 288 cycles. -/
theorem flush_accepted :
    acceptedCmd (nextInputs (ready (cmdIn 4) filled)) (ready (cmdIn 4) filled) = some .flush ∧
      (∀ a < (ready (cmdIn 4) filled).cfg.bufBytes, a ∈ (ready (cmdIn 4) filled).pbW) ∧
      (∀ m, (ready (cmdIn 4) filled).noReset (m + 1)) ∧ (ready (cmdIn 4) filled).cfg.flushCycles = 288 := by
  refine ⟨by decide, by decide, fun m => ?_, by decide⟩
  intro e he
  have : e ∈ [cmdIn 4] := List.mem_of_mem_take he
  simp at this
  subst this
  rfl

theorem witness_TransmissionLastsFlushCycles :
    0 ≤ (ready (cmdIn 4) filled).cfg.flushCycles ∧ 288 ≤ (ready (cmdIn 4) filled).cfg.flushCycles := by decide

theorem witness_WaveformHasTheClosedForm :
    0 ≤ (ready (cmdIn 4) filled).cfg.flushCycles ∧ 288 ≤ (ready (cmdIn 4) filled).cfg.flushCycles := by decide

/-- Configuration TV with `EVEN_COL_UP = false`. -/
def mirrored : Build := { cfg := { Config.tv with evenColUp := false }, admitted := by decide }

/-- The first two columns, for both settings of `EVEN_COL_UP`: each scan direction is met. -/
theorem witness_SerpentineMapIsABijection :
    (0 < Build.tv.cfg.n ∧ (0 % 2 = 0 ↔ Build.tv.cfg.evenColUp = true)) ∧ ¬(1 % 2 = 0 ↔ Build.tv.cfg.evenColUp = true) ∧
      ¬(0 % 2 = 0 ↔ mirrored.cfg.evenColUp = true) ∧ (1 % 2 = 0 ↔ mirrored.cfg.evenColUp = true) := by decide

theorem witness_HalvesAreTheColumnHalves :
    ∀ x ∈ [1, 2], x < Build.tv.cfg.n ∧ 3 < Build.tv.cfg.n ∧ 2 < 3 := by decide

theorem witness_BufferIsFrozenWhileBusy :
    busy.tx.busy = true ∧ (∃ t, clockEdge (cmdIn 0x010203000003) busy = .next t) ∧ ∃ t, clockEdge rstIn busy = .next t :=
  ⟨rfl, ⟨_, rfl⟩, _, rfl⟩

/-- A SET and a CLEAR that change a byte. -/
theorem witness_OnlySetAndClearChangePixels :
    ∀ w ∈ [0x010203000012, 0x010203000003],
      after (clockEdge (cmdIn (BitVec.ofNat 48 w)) filled) (fun t => decide (t.pbMem ≠ filled.pbMem)) = some true := by
  decide

theorem witness_CmdErrIsSticky :
    (∃ t, clockEdge rstIn (tv.withCmdErr true) = .next t) ∧ (∃ t, clockEdge (cmdIn 5) tv = .next t) ∧
      rstIn.rst = true ∧ (cmdIn 5).rst = false := ⟨⟨_, rfl⟩, ⟨_, rfl⟩, rfl, rfl⟩

theorem witness_StepKeepsTheInvariant :
    busy.Inv ∧ ∃ t, step busy = .next t := ⟨busy_inv, _, rfl⟩

theorem witness_LinesAlwaysHaveALevel : busy.Inv := busy_inv

end Sys2Proof.Tests
end

section
/-! Admission (spec/00_scope.md R13): the build-time refusal of `Config.refusedBy` read as the conjunction of W1 to W8, and
W6 read as "every channel occurs in the order". -/

namespace Sys2Proof

/-- A statement about every channel is one statement for each of R, G and B. -/
theorem Channel.forall_iff {p : Channel → Prop} : (∀ ch, p ch) ↔ p .R ∧ p .G ∧ p .B := by
  constructor
  · intro h
    exact ⟨h .R, h .G, h .B⟩
  · rintro ⟨hR, hG, hB⟩ ch
    cases ch
    · exact hR
    · exact hG
    · exact hB

/-- There are three channels, so three of them are pairwise distinct exactly when none is missing: a closed fact about the
27 choices of three channels. -/
theorem Channel.pairwise_ne_iff_all_occur : ∀ k0 k1 k2 : Channel,
    (k0 ≠ k1 ∧ k0 ≠ k2 ∧ k1 ≠ k2) ↔ ∀ ch, ch = k0 ∨ ch = k1 ∨ ch = k2 := by
  simp [Channel.forall_iff]

namespace Config

/-- W6 says that every channel occurs in `CHANNEL_ORDER` (R9, R13). -/
theorem w6_iff_all_channels_occur (c : Config) :
    c.W6 ↔ ∀ ch, ch = c.channelOrder.k0 ∨ ch = c.channelOrder.k1 ∨ ch = c.channelOrder.k2 :=
  Channel.pairwise_ne_iff_all_occur _ _ _

/-- The list that `refusedBy` searches leaves out no check. -/
theorem refusedBy_eq_none_iff_all_hold (c : Config) :
    c.refusedBy = none ↔ ∀ k : Check, k.holds c = true := by
  have all_listed (k : Check) : k ∈ [Check.w1, .w2, .w3, .w4, .w5, .w6, .w7, .w8] := by
    cases k <;> decide
  simp only [refusedBy, List.find?_eq_none, all_listed, forall_const, Bool.not_eq_true', Bool.not_eq_false]

theorem admitted_iff_all_hold (c : Config) : c.Admitted ↔ ∀ k : Check, k.holds c = true := by
  constructor
  · rintro ⟨h1, h2, h3, h4, h5, h6, h7, h8⟩ k
    cases k <;> exact decide_eq_true ‹_›
  · intro h
    exact ⟨of_decide_eq_true (h .w1), of_decide_eq_true (h .w2), of_decide_eq_true (h .w3), of_decide_eq_true (h .w4),
      of_decide_eq_true (h .w5), of_decide_eq_true (h .w6), of_decide_eq_true (h .w7), of_decide_eq_true (h .w8)⟩

/-- R13 and R204: the build is refused exactly for a configuration that is not admitted. -/
theorem refusedBy_eq_none_iff_admitted (c : Config) : c.refusedBy = none ↔ c.Admitted :=
  c.refusedBy_eq_none_iff_all_hold.trans c.admitted_iff_all_hold.symm

end Config

/-- Settles O8: `refusedBy` is none exactly for an admitted configuration, whose W6 says that no channel is missing; the
other seven checks are the statement's own, with `10 ^ 9` and `2 ^ CNT_W - 2` evaluated. -/
theorem admissionIsAllEightChecks : Obligations.AdmissionIsAllEightChecks := by
  intro c
  rw [c.refusedBy_eq_none_iff_admitted, Config.Admitted, c.w6_iff_all_channels_occur]
  exact Iff.rfl

end Sys2Proof
end

section
/-! The state at reset and the registers a port leaves alone (spec/10_state.md): the reset values and the invariant they
meet (R40), `cmd_err` (R35), and the decoder, which ticks alone move (R39). -/

namespace Sys2Proof.Machine

/-! ### The reset state -/

/-- While nothing is sent both lines are low (R144). -/
theorem wsOut_of_not_busy {s : State} (h : s.tx.busy = false) (line : Fin 2) : wsOut s line = some false := by
  simp [wsOut, h]

/-- W1 leaves no half empty: a matrix of side 2 has two pixels in each. -/
theorem halfBytes_pos {c : Config} (h : c.W1) : 0 < c.halfBytes := by
  obtain ⟨-, two_le, -⟩ := h
  have four_le : 2 * 2 ≤ c.n * c.n := Nat.mul_le_mul two_le two_le
  simp only [Config.halfBytes, Config.halfPix, Config.nPix]
  omega

/-- W2 leaves no symbol empty. -/
theorem symLen_pos {c : Config} (h : c.W2) (y : Sym) : 0 < symLen c y := by
  obtain ⟨hA, hB, hC⟩ := h
  cases y
  · exact hA
  · exact hB
  · exact hC

/-- The reset position is in range by W1 and W2 and `clr_cnt = 0` by W7; the other relations speak of written bytes, of a
transmission, of a partial word or of a waiting word, and after reset there is none (R40). -/
theorem State.inv_resetOf (b : Build) : (State.resetOf b).Inv := by
  obtain ⟨hW1, hW2, -, -, -, -, hW7, -⟩ := b.admitted
  exact {
    memSorted := Memory.wf_nil
    memInRange := by simp
    marksSorted := Marks.wf_nil
    marksListed := by simp
    idxInHalf := halfBytes_pos hW1
    cycInSym := symLen_pos hW2 .A
    idlePosition := fun _ => rfl
    busyWritten := by simp [Transmitter.initial]
    busyNoStall := fun _ => rfl
    stallInRange := hW7
    collectingFresh := by simp [Decoder.initial]
    mailboxStart := by simp
    responseForm := fun _ => rfl }

/-! ### What an operation does to the configuration, the decoder and `cmd_err` -/

/-- No operation changes the configuration (R37). -/
theorem exec_build {i : Instr} {s t : State} (h : exec i s = .next t) : t.build = s.build := by
  obtain ⟨-, rfl⟩ | ⟨-, rfl⟩ | ⟨x, y, rgb, -, ⟨-, rfl⟩ | ⟨j, -, rfl⟩⟩ | ⟨rgb, -, rfl⟩ | ⟨-, -, rfl⟩ | ⟨-, rfl⟩ |
    ⟨p, -, rfl⟩ := exec_next_cases h
  all_goals simp [flagReserved]

/-- No command changes the decoder (R123). -/
theorem exec_dec {i : Instr} {s t : State} (h : exec i s = .next t) (hi : ∀ p, i ≠ .tick p) : t.dec = s.dec := by
  obtain ⟨-, rfl⟩ | ⟨-, rfl⟩ | ⟨x, y, rgb, -, ⟨-, rfl⟩ | ⟨j, -, rfl⟩⟩ | ⟨rgb, -, rfl⟩ | ⟨-, -, rfl⟩ | ⟨-, rfl⟩ |
    ⟨p, rfl, -⟩ := exec_next_cases h
  case inr.inr.inr.inr.inr.inr => exact absurd rfl (hi p)
  all_goals simp [flagReserved]

/-- A reserved opcode sets `cmd_err`, and no other operation touches it (R189). -/
theorem exec_cmdErr {i : Instr} {s t : State} (h : exec i s = .next t) : t.cmdErr = (s.cmdErr || isReserved i) := by
  obtain ⟨rfl, rfl⟩ | ⟨rfl, rfl⟩ | ⟨x, y, rgb, rfl, ⟨-, rfl⟩ | ⟨j, -, rfl⟩⟩ | ⟨rgb, rfl, rfl⟩ | ⟨rfl, -, rfl⟩ | ⟨hr, rfl⟩ |
    ⟨p, rfl, rfl⟩ := exec_next_cases h
  case inr.inr.inr.inr.inr.inl => simp [flagReserved, hr]
  all_goals simp [isReserved, opcodeOf]

/-! ### The command port -/

/-- The decoder answers the operation of the word's opcode (R71). -/
theorem opcodeOf_decodeCmd (w : CmdWord) : opcodeOf (decodeCmd w) = some (opcodeField w) := by
  have opcode_lt : opcodeField w < 16 := (w.extractLsb' 0 4).isLt
  unfold decodeCmd
  split
  all_goals simp only [opcodeOf, Option.some.injEq]
  case h_16 =>
    simp only [imp_false] at *
    omega
  all_goals omega

/-- The reserved opcodes are those from 5 up (R77). -/
theorem isReserved_decodeCmd (w : CmdWord) : isReserved (decodeCmd w) = decide (5 ≤ opcodeField w) := by
  simp [isReserved, opcodeOf_decodeCmd]

/-- The command port changes neither the configuration nor the decoder: it never carries a TICK (R123). -/
theorem runPort_acceptedCmd_frame {e : EdgeIn} {s u v : State} (h : runPort (acceptedCmd e s) u = .next v) :
    v.build = u.build ∧ v.dec = u.dec := by
  obtain ⟨-, rfl⟩ | ⟨i, hi, hx⟩ := runPort_next_cases h
  · exact ⟨rfl, rfl⟩
  · rw [acceptedCmd_eq, Option.ite_none_right_eq_some, Option.some.injEq] at hi
    obtain ⟨-, rfl⟩ := hi
    exact ⟨exec_build hx, exec_dec hx (decodeCmd_ne_tick e.cmd)⟩

/-- The command port sets `cmd_err` by accepting an opcode of 5 or above, and else leaves it (R187, R189). -/
theorem runPort_acceptedCmd_cmdErr {e : EdgeIn} {s u v : State} (h : runPort (acceptedCmd e s) u = .next v) :
    v.cmdErr = true ↔ u.cmdErr = true ∨ (cmdReady s = true ∧ e.cmdValid = true ∧ 5 ≤ opcodeField e.cmd) := by
  rw [acceptedCmd_eq] at h
  by_cases ha : e.cmdValid = true ∧ cmdReady s = true
  · rw [if_pos ha] at h
    simp [exec_cmdErr h, isReserved_decodeCmd, ha]
  · rw [if_neg ha] at h
    cases h
    tauto

/-! ### The edge -/

/-- An edge without reset is the command port's operation and then the tick, which always goes on (R185). -/
theorem clockEdge_next_of_no_reset {e : EdgeIn} {s t : State} (hr : e.rst = false) (h : clockEdge e s = .next t) :
    ∃ u, runPort (acceptedCmd e s) (background s) = .next u ∧
      t = if e.rc5Tick then
        publishIf (tickDecoder u.cfg e.rc5In u.dec).2 (u.withDec (tickDecoder u.cfg e.rc5In u.dec).1) else u := by
  obtain ⟨hr', -⟩ | ⟨-, u, hcmd, htick⟩ := clockEdge_next_cases h
  · rw [hr] at hr'
    cases hr'
  · rw [runPort_tick] at htick
    cases htick
    exact ⟨u, hcmd, rfl⟩

/-- The decoder after an edge without reset: a function of the configuration, the decoder and the tick (R39, R123). -/
theorem clockEdge_dec {e : EdgeIn} {s t : State} (hr : e.rst = false) (h : clockEdge e s = .next t) :
    t.dec = if e.rc5Tick then (tickDecoder s.cfg e.rc5In s.dec).1 else s.dec := by
  obtain ⟨u, hcmd, rfl⟩ := clockEdge_next_of_no_reset hr h
  obtain ⟨hbuild, hdec⟩ := runPort_acceptedCmd_frame hcmd
  split <;> simp [State.cfg, hbuild, hdec]

/-- `cmd_err` after an edge without reset (R35): the rest of the edge and the tick leave it to the command port. -/
theorem clockEdge_cmdErr {e : EdgeIn} {s t : State} (hr : e.rst = false) (h : clockEdge e s = .next t) :
    t.cmdErr = true ↔ s.cmdErr = true ∨ (cmdReady s = true ∧ e.cmdValid = true ∧ 5 ≤ opcodeField e.cmd) := by
  obtain ⟨u, hcmd, rfl⟩ := clockEdge_next_of_no_reset hr h
  rw [← background_cmdErr s, ← runPort_acceptedCmd_cmdErr hcmd]
  split <;> simp

/-- A reset edge clears `cmd_err` (R35, R230). -/
theorem clockEdge_reset_cmdErr {e : EdgeIn} {s t : State} (hr : e.rst = true) (h : clockEdge e s = .next t) :
    t.cmdErr = false := by
  obtain ⟨-, rfl⟩ | ⟨hr', -⟩ := clockEdge_next_cases h
  · rfl
  · rw [hr] at hr'
    cases hr'

/-! ### The obligations -/

/-- Settles O47: `clockEdge_dec` gives both decoders as one function of what the two edges share. -/
theorem decoderDependsOnTicksAlone : Obligations.DecoderDependsOnTicksAlone := by
  intro e1 e2 s1 s2 t1 t2 hr1 hr2 htick hin hbuild hdec h1 h2
  rw [clockEdge_dec hr1 h1, clockEdge_dec hr2 h2]
  constructor
  · simp [State.cfg, htick, hin, hbuild, hdec]
  · intro hno
    simp [hno]

/-- Settles O57: reset clears `cmd_err`, and every other edge is `clockEdge_cmdErr`. -/
theorem cmdErrIsSticky : Obligations.CmdErrIsSticky :=
  ⟨State.resetOf_cmdErr, fun _ _ _ h => ⟨fun hr => clockEdge_reset_cmdErr hr h, fun hr => clockEdge_cmdErr hr h⟩⟩

/-- Settles O9: the registers hold the values of R40, no ghost bit is listed, and both lines are low because nothing is
being sent. -/
theorem resetStateHoldsResetValues : Obligations.ResetStateHoldsResetValues := by
  intro b
  have lines_low : ∀ line, wsOut (State.resetOf b) line = some false := wsOut_of_not_busy rfl
  simp [outputs, lines_low, Decoder.initial, Transmitter.initial]

/-- Settles O58: the model's own reset state is that of configuration TV. -/
theorem resetEstablishesTheInvariant : Obligations.ResetEstablishesTheInvariant :=
  ⟨State.inv_resetOf, State.inv_resetOf Build.tv⟩

end Sys2Proof.Machine
end

section
/-! The pixel buffer's address space and its safety (spec/20_memory.md): the serpentine map (R52, R54, R55), the invariant
that every edge keeps (spec/10_state.md), and the buffer while a transmission runs (R64). -/

namespace Sys2Proof.Machine

/-! ### The serpentine map (R52, R54) -/

/-- The place of row `y` along the wire of column `x`: up or down the column, as R52 says. -/
def scanRow (c : Config) (x y : Nat) : Nat := if decide (x % 2 = 0) = c.evenColUp then y else c.n - 1 - y

theorem slot_eq (c : Config) (x y : Nat) : slot c x y = x * c.n + scanRow c x y := rfl

theorem scanRow_up {c : Config} {x : Nat} (h : x % 2 = 0 ↔ c.evenColUp = true) (y : Nat) : scanRow c x y = y :=
  if_pos (Bool.eq_iff_iff.2 (decide_eq_true_iff.trans h))

theorem scanRow_down {c : Config} {x : Nat} (h : ¬(x % 2 = 0 ↔ c.evenColUp = true)) (y : Nat) :
    scanRow c x y = c.n - 1 - y :=
  if_neg fun heq => h (decide_eq_true_iff.symm.trans (Bool.eq_iff_iff.1 heq))

theorem scanRow_lt {c : Config} {y : Nat} (x : Nat) (hy : y < c.n) : scanRow c x y < c.n := by
  unfold scanRow
  split <;> omega

/-- A column read backwards twice is read forwards. -/
theorem scanRow_scanRow {c : Config} {y : Nat} (x : Nat) (hy : y < c.n) : scanRow c x (scanRow c x y) = y := by
  unfold scanRow
  split <;> omega

/-- The column is the quotient of the slot by N. -/
theorem slot_div {c : Config} {y : Nat} (x : Nat) (hy : y < c.n) : slot c x y / c.n = x := by
  rw [slot_eq, Nat.mul_comm, Nat.mul_add_div (by omega), Nat.div_eq_of_lt (scanRow_lt x hy), Nat.add_zero]

/-- The place along the column is the remainder. -/
theorem slot_mod {c : Config} {y : Nat} (x : Nat) (hy : y < c.n) : slot c x y % c.n = scanRow c x y := by
  rw [slot_eq, Nat.mul_comm, Nat.mul_add_mod, Nat.mod_eq_of_lt (scanRow_lt x hy)]

/-- The coordinate of a slot: its column and, the column read the same way again, its row. -/
theorem slot_div_scanRow_mod {c : Config} (hn : 0 < c.n) (i : Nat) :
    slot c (i / c.n) (scanRow c (i / c.n) (i % c.n)) = i := by
  rw [slot_eq, scanRow_scanRow _ (Nat.mod_lt i hn), Nat.mul_comm, Nat.div_add_mod]

/-- N is even (W1), so half of the pixels are N/2 whole columns. -/
theorem halfPix_eq {c : Config} (h : c.W1) : c.halfPix = c.n / 2 * c.n := by
  obtain ⟨even, -, -⟩ := h
  rw [Config.halfPix, Config.nPix, Nat.div_mul_right_comm (Nat.dvd_of_mod_eq_zero even)]

/-- Settles O53: quotient and remainder by N give the column and the place along it, and from that place the row. -/
theorem serpentineMapIsABijection : Obligations.SerpentineMapIsABijection := by
  intro b
  refine ⟨fun x _ y _ => ⟨fun h => ?_, fun h => ?_⟩, fun x hx y hy => slot_lt hx hy, fun i hi => ?_⟩
  · rw [slot_eq, scanRow_up h]
  · rw [slot_eq, scanRow_down h]
  · have hn : 0 < b.cfg.n := Nat.pos_of_mul_pos_left (Nat.zero_lt_of_lt hi)
    refine ⟨i / b.cfg.n, Nat.div_lt_of_lt_mul hi, scanRow b.cfg (i / b.cfg.n) (i % b.cfg.n),
      scanRow_lt _ (Nat.mod_lt i hn), slot_div_scanRow_mod hn i, ?_⟩
    rintro x _ y hy rfl
    rw [slot_div x hy, slot_mod x hy, scanRow_scanRow x hy]
    exact ⟨rfl, rfl⟩

/-- Settles O54: a byte lies in the half of its slot, and a slot in the half of its column, the slot's quotient by N. -/
theorem halvesAreTheColumnHalves : Obligations.HalvesAreTheColumnHalves := by
  intro b x y k _ hy hk
  calc 3 * slot b.cfg x y + k < b.cfg.halfBytes
      ↔ slot b.cfg x y < b.cfg.n / 2 * b.cfg.n := by
        rw [← halfPix_eq b.admitted.1, Config.halfBytes]
        omega
    _ ↔ slot b.cfg x y / b.cfg.n < b.cfg.n / 2 := (Nat.div_lt_iff_lt_mul (by omega)).symm
    _ ↔ x < b.cfg.n / 2 := by rw [slot_div x hy]

/-! ### The command port's readiness (R186) -/

theorem cmdReady_iff {s : State} : cmdReady s = true ↔ s.tx.busy = false ∧ s.clrCnt = 0 := by
  simp [cmdReady]

/-- A ready port is ready still after the part of the edge that comes before the command. -/
theorem cmdReady_background {s : State} (h : cmdReady s = true) : cmdReady (background s) = true := by
  obtain ⟨idle, no_stall⟩ := cmdReady_iff.1 h
  simp [cmdReady_iff, idle, no_stall]

theorem cmdReady_of_acceptedCmd {e : EdgeIn} {s : State} {i : Instr} (h : acceptedCmd e s = some i) :
    cmdReady s = true := by
  rw [acceptedCmd_eq, Option.ite_none_right_eq_some] at h
  obtain ⟨⟨-, ready⟩, -⟩ := h
  exact ready

theorem acceptedCmd_of_busy {e : EdgeIn} {s : State} (h : s.tx.busy = true) : acceptedCmd e s = none := by
  simp [acceptedCmd_eq, cmdReady_iff, h]

/-- Settles O55: a busy port accepts no command, and neither a reset, the rest of the edge nor the tick writes the buffer. -/
theorem bufferIsFrozenWhileBusy : Obligations.BufferIsFrozenWhileBusy := by
  intro e s t hbusy h
  obtain ⟨hr, rfl⟩ | ⟨hr, -⟩ := clockEdge_next_cases h
  · simp [hr]
  · obtain ⟨u, hcmd, rfl⟩ := clockEdge_next_of_no_reset hr h
    rw [acceptedCmd_of_busy hbusy] at hcmd
    cases hcmd
    split <;> simp

/-! ### The sequencer's position (R142) -/

/-- A step of the sequencer goes on sending or ends at the reset position. -/
theorem advance_busy_or_initial (c : Config) (t : Transmitter) :
    (advance c t).busy = t.busy ∨ advance c t = Transmitter.initial := by
  obtain ⟨-, h⟩ | ⟨-, h⟩ | ⟨-, h⟩ | ⟨-, -, h⟩ | ⟨-, -, -, h⟩ | ⟨-, -, -, -, h⟩ | ⟨-, -, -, -, h⟩ := advance_cases c t
  case inr.inr.inr.inr.inr.inr => exact .inr h
  all_goals exact .inl (by rw [h])

theorem advance_idx_lt {c : Config} (hW1 : c.W1) {t : Transmitter} (hidx : t.idx < c.halfBytes) :
    (advance c t).idx < c.halfBytes := by
  obtain ⟨-, h⟩ | ⟨-, h⟩ | ⟨-, h⟩ | ⟨-, -, h⟩ | ⟨-, -, hnext, h⟩ | ⟨-, -, -, -, h⟩ | ⟨-, -, -, -, h⟩ := advance_cases c t
  all_goals rw [h]
  case inr.inr.inr.inr.inl => exact hnext
  case inr.inr.inr.inr.inr.inl => exact halfBytes_pos hW1
  case inr.inr.inr.inr.inr.inr => exact halfBytes_pos hW1
  all_goals exact hidx

theorem advance_cyc_lt {c : Config} (hW2 : c.W2) (t : Transmitter) :
    (advance c t).cyc < symLen c (advance c t).sym := by
  obtain ⟨hnext, h⟩ | ⟨-, h⟩ | ⟨-, h⟩ | ⟨-, -, h⟩ | ⟨-, -, -, h⟩ | ⟨-, -, -, -, h⟩ | ⟨-, -, -, -, h⟩ := advance_cases c t
  all_goals rw [h]
  case inl => exact hnext
  all_goals exact symLen_pos hW2 _

/-! ### The decoder's registers (R104, R105) -/

/-- After any tick, a decoder that holds a partial word has not passed the timeout: past it the word is gone. -/
theorem tickDecoder_fresh {c : Config} {p : Bool} {d : Decoder} (h : (tickDecoder c p d).1.acc ≠ 0) :
    (tickDecoder c p d).1.cnt.toNat ≤ c.pulseMax := by
  by_cases hb : inputStage c p = d.lvl
  · rw [tickDecoder_quiet hb] at h ⊢
    by_contra late
    exact h (congrArg Prod.fst (timeoutStage_after d.acc (not_le.1 late)))
  · rw [tickDecoder_edge hb]
    exact Nat.zero_le _

/-- A published word begins with the canonical start bits. -/
theorem tickDecoder_word_start {c : Config} {p : Bool} {d : Decoder} {w : RcWord} (h : (tickDecoder c p d).2 = some w) :
    w.extractLsb' 12 2 = startPattern := by
  obtain ⟨-, valid, rfl⟩ := tickDecoder_publishes h
  exact startValid_word valid

/-- A response is 0x00 or has bit 7 set (R79). -/
theorem takeData_form {c : Config} {m : Mailbox} (h : (takeData c m).getLsbD 7 = false) : takeData c m = 0 := by
  cases hv : m.valid with
  | false => exact takeData_none hv
  | true => exact absurd (h.symm.trans (takeData_has hv)) Bool.false_ne_true

/-! ### The invariant, setter by setter

Each rule asks for what the invariant says of the fields the setter writes, and takes the rest from the state before. -/

namespace State.Inv

variable {s : State}

theorem withPins (h : s.Inv) (p : List EdgeIn) : (s.withPins p).Inv := { h with }

theorem withCmdErr (h : s.Inv) (b : Bool) : (s.withCmdErr b).Inv := { h with }

theorem withRsp (h : s.Inv) {r : Response} (hform : r.data.getLsbD 7 = false → r.data = 0) : (s.withRsp r).Inv :=
  { h with responseForm := hform }

theorem withMbox (h : s.Inv) {m : Mailbox} (hstart : m.valid = true → m.word.extractLsb' 12 2 = startPattern) :
    (s.withMbox m).Inv :=
  { h with mailboxStart := hstart }

theorem withDec (h : s.Inv) {d : Decoder} (hfresh : d.acc ≠ 0 → d.cnt.toNat ≤ s.cfg.pulseMax) : (s.withDec d).Inv :=
  { h with collectingFresh := hfresh }

theorem withClrCnt (h : s.Inv) {k : Nat} (hlt : k < s.cfg.clearLat) (hbusy : s.tx.busy = true → k = 0) :
    (s.withClrCnt k).Inv :=
  { h with stallInRange := hlt, busyNoStall := hbusy }

theorem withTx (h : s.Inv) {t : Transmitter} (hidx : t.idx < s.cfg.halfBytes) (hcyc : t.cyc < symLen s.cfg t.sym)
    (hidle : t.busy = false → t = Transmitter.initial)
    (hbusy : t.busy = true → (∀ a < s.cfg.bufBytes, a ∈ s.pbW) ∧ s.clrCnt = 0) : (s.withTx t).Inv :=
  { h with
    idxInHalf := hidx
    cycInSym := hcyc
    idlePosition := hidle
    busyWritten := fun hb => (hbusy hb).1
    busyNoStall := fun hb => (hbusy hb).2 }

/-! ### The invariant, operation by operation

Each rule has the name of the operation it is about; `Machine.` before a name means the operation itself. -/

/-- A byte store inside the buffer: the byte it marks is the byte it writes. -/
theorem storeByte (h : s.Inv) {a : Nat} (ha : a < s.cfg.bufBytes) (v : Byte) : (Machine.storeByte a v s).Inv :=
  { h with
    memSorted := Memory.wf_write h.memSorted a v
    memInRange := by
      intro p hp
      rcases Memory.mem_write hp with rfl | hp
      · exact ha
      · exact h.memInRange p hp
    marksSorted := Marks.wf_mark h.marksSorted a
    marksListed := by
      intro b hb
      rw [storeByte_pbMem]
      by_cases hba : b = a
      · simp [hba]
      · rw [Memory.read_write_other _ _ hba]
        exact h.marksListed b ((Marks.mem_mark.1 hb).resolve_left hba)
    busyWritten := fun hb b hlt => Marks.mem_mark.2 (.inr (h.busyWritten hb b hlt)) }

/-- A slot of the matrix lies in the buffer (R50, R51). -/
theorem storeSlot (h : s.Inv) {i : Nat} (hi : i < s.cfg.nPix) (col : Color) : (Machine.storeSlot i col s).Inv := by
  have byte_lt (k : Nat) (hk : k < 3) : byteAddr i k < s.cfg.bufBytes := by
    simp only [byteAddr, Config.bufBytes]
    omega
  exact ((h.storeByte (byte_lt 0 (by omega)) _).storeByte (byte_lt 1 (by omega)) _).storeByte (byte_lt 2 (by omega)) _

theorem fillSlots (h : s.Inv) {k : Nat} (hk : k ≤ s.cfg.nPix) (col : Color) : (Machine.fillSlots col k s).Inv := by
  induction k with
  | zero => exact h
  | succ k ih => exact (ih (by omega)).storeSlot (by simpa [State.cfg] using hk) col

/-- Stepping the sequencer: it may end a transmission and never begins one. -/
theorem sequencer (h : s.Inv) : (Machine.sequencer s).Inv := by
  unfold Machine.sequencer
  split
  case isFalse => exact h
  case isTrue hbusy =>
    obtain ⟨hW1, hW2, -⟩ := s.build.admitted
    refine h.withTx (advance_idx_lt hW1 h.idxInHalf) (advance_cyc_lt hW2 _) (fun hidle => ?_)
      (fun _ => ⟨h.busyWritten hbusy, h.busyNoStall hbusy⟩)
    obtain same | initial := advance_busy_or_initial s.cfg s.tx
    · simp [same, hbusy] at hidle
    · exact initial

theorem dropResponse (h : s.Inv) : (Machine.dropResponse s).Inv := h.withRsp h.responseForm

/-- What every edge does before the command (R185). -/
theorem background (h : s.Inv) : (Machine.background s).Inv := by
  have hseq : (Machine.sequencer (Machine.dropResponse s)).Inv := h.dropResponse.sequencer
  refine hseq.withClrCnt (lt_of_le_of_lt (Nat.sub_le _ 1) hseq.stallInRange) fun hbusy => ?_
  rw [hseq.busyNoStall hbusy]

theorem emptyMailbox (h : s.Inv) : (Machine.emptyMailbox s).Inv := h.withMbox nofun

/-- TAKE's response has the form of R79 (R117). -/
theorem respond_takeData (h : s.Inv) (m : Mailbox) : (Machine.respond (takeData s.cfg m) s).Inv := h.withRsp takeData_form

/-- FLUSH of a written buffer while no CLEAR holds the port (R141). -/
theorem startTx (h : s.Inv) (hwritten : ∀ a < s.cfg.bufBytes, a ∈ s.pbW) (hstall : s.clrCnt = 0) :
    (s.withTx Machine.startTx).Inv := by
  obtain ⟨hW1, hW2, -⟩ := s.build.admitted
  exact h.withTx (halfBytes_pos hW1) (symLen_pos hW2 .A) nofun fun _ => ⟨hwritten, hstall⟩

/-- CLEAR while nothing is sent (R172, R173). -/
theorem clear (h : s.Inv) (hidle : s.tx.busy = false) (col : Color) :
    ((Machine.fillSlots col s.cfg.nPix s).withClrCnt (s.cfg.clearLat - 1)).Inv := by
  have hlat : s.cfg.clearLat - 1 < s.cfg.clearLat := Nat.sub_lt (Nat.zero_lt_of_lt h.stallInRange) one_pos
  exact (h.fillSlots le_rfl col).withClrCnt (by simpa [State.cfg] using hlat) (by simp [hidle])

/-- Publishing a word that begins with the canonical start bits (R115). -/
theorem publishIf (h : s.Inv) {pub : Option RcWord} (hstart : ∀ w, pub = some w → w.extractLsb' 12 2 = startPattern) :
    (Machine.publishIf pub s).Inv := by
  cases pub with
  | none => exact h
  | some w => exact h.withMbox fun _ => hstart w rfl

/-- A tick (R101). -/
theorem tick (h : s.Inv) (p : Bool) :
    (Machine.publishIf (tickDecoder s.cfg p s.dec).2 (s.withDec (tickDecoder s.cfg p s.dec).1)).Inv :=
  (h.withDec tickDecoder_fresh).publishIf fun _ => tickDecoder_word_start

/-- A reset edge keeps the bytes and clears their ghost bits; everything else is as at power-up (R230, R232). -/
theorem clockReset (h : s.Inv) : (Machine.clockReset s).Inv :=
  { State.inv_resetOf s.build with
    memSorted := h.memSorted
    memInRange := h.memInRange
    marksListed := by simp [Machine.clockReset] }

end State.Inv

/-! ### The invariant along an edge -/

/-- Every operation accepted by a ready port keeps the invariant. CLEAR needs that nothing is being sent, and FLUSH that no
CLEAR holds the port. -/
theorem exec_keeps_inv {i : Instr} {s t : State} (h : s.Inv) (hready : cmdReady s = true) (hx : exec i s = .next t) :
    t.Inv := by
  obtain ⟨hidle, hstall⟩ := cmdReady_iff.1 hready
  obtain ⟨-, rfl⟩ | ⟨-, rfl⟩ | ⟨x, y, rgb, -, ⟨-, rfl⟩ | ⟨j, hj, rfl⟩⟩ | ⟨rgb, -, rfl⟩ | ⟨-, hw, rfl⟩ | ⟨-, rfl⟩ |
    ⟨p, -, rfl⟩ := exec_next_cases hx
  · exact h
  · exact (h.respond_takeData _).emptyMailbox
  · exact h
  · obtain ⟨-, -, slot_in_buffer⟩ := slotOf_some hj
    exact h.storeSlot slot_in_buffer rgb
  · exact h.clear hidle rgb
  · exact h.startTx (firstUnwritten_none.1 hw) hstall
  · exact h.withCmdErr true
  · exact h.tick p

theorem clockEdge_keeps_inv {e : EdgeIn} {s t : State} (h : s.Inv) (hx : clockEdge e s = .next t) : t.Inv := by
  obtain ⟨-, rfl⟩ | ⟨hr, -⟩ := clockEdge_next_cases hx
  · exact h.clockReset
  · obtain ⟨u, hcmd, rfl⟩ := clockEdge_next_of_no_reset hr hx
    have hu : u.Inv := by
      obtain ⟨-, rfl⟩ | ⟨i, hi, hexec⟩ := runPort_next_cases hcmd
      · exact h.background
      · exact exec_keeps_inv h.background (cmdReady_background (cmdReady_of_acceptedCmd hi)) hexec
    split
    · exact hu.tick e.rc5In
    · exact hu

/-- Settles O59: a step is an edge from the state whose next inputs are used up. -/
theorem stepKeepsTheInvariant : Obligations.StepKeepsTheInvariant :=
  fun _ _ h hx => clockEdge_keeps_inv (h.withPins _) hx

end Sys2Proof.Machine
end

section
/-! The encoding (spec/30_encoding.md): the formats and the fields of a word (R72 to R76), decode and encode against each
other (R70 to R78), the assembler's numbers (R84), the reduced command (R82), and a command beside a tick (R71). -/

namespace Sys2Proof

/-! ### The formats (R72 to R75) -/

/-- A concatenation as a number. -/
theorem toNat_append_eq_add {n k : Nat} (hi : BitVec n) (lo : BitVec k) :
    (hi ++ lo).toNat = hi.toNat * 2 ^ k + lo.toNat := by
  rw [BitVec.toNat_append, ← Nat.shiftLeft_add_eq_or_of_lt lo.isLt, Nat.shiftLeft_eq]

theorem toNat_rgbBits (c : Color) : (rgbBits c).toNat = c.r.toNat * 65536 + c.g.toNat * 256 + c.b.toNat := by
  simp only [rgbBits, BitVec.toNat_cast, toNat_append_eq_add]
  omega

/-- Three intensities are the digits of `#RRGGBB` in base 256. -/
theorem rgbBits_inj {c d : Color} (h : rgbBits c = rgbBits d) : c = d := by
  have digits := congrArg BitVec.toNat h
  cases c
  cases d
  simp only [toNat_rgbBits] at digits
  simp only [Color.mk.injEq, ← BitVec.toNat_inj]
  omega

theorem rgbBits_rgbField (w : CmdWord) : rgbBits (rgbField w) = w.extractLsb' 20 24 := by
  simp only [rgbBits, rgbField, BitVec.extractLsb'_append_extractLsb'_eq_extractLsb']
  rfl

/-- Format C is format S with both coordinates 0. -/
theorem formatC_eq_formatS (op : BitVec 4) (c : Color) : formatC op c = formatS op 0 0 c := by
  have zeros : 0#16 = 0#8 ++ 0#8 := rfl
  simp only [formatC, formatS, zeros, BitVec.append_assoc, BitVec.ofInt_ofNat, BitVec.cast_eq]

/-! ### The fields of an encoded word -/

/-- A coordinate that fits its field is read back from it (R56, R73). -/
theorem toInt_ofInt_of_coordFits {v : Int} (h : coordFits v = true) : (BitVec.ofInt 8 v).toInt = v := by
  simp only [coordFits, Bool.and_eq_true, decide_eq_true_eq] at h
  obtain ⟨low, high⟩ := h
  exact BitVec.toInt_ofInt_eq_self (by decide) low high

section
variable (op : BitVec 4) {x y : Int} (c : Color)

theorem xField_formatS (hx : coordFits x = true) : xField (formatS op x y c) = x := by
  have bits : (formatS op x y c).extractLsb' 4 8 = BitVec.ofInt 8 x := by
    rw [formatS, BitVec.extractLsb'_cast, BitVec.extractLsb'_append_eq_of_le le_rfl]
    exact Laws.Opcode.low_append _ _
  rw [xField, bits, toInt_ofInt_of_coordFits hx]

theorem yField_formatS (hy : coordFits y = true) : yField (formatS op x y c) = y := by
  have bits : (formatS op x y c).extractLsb' 12 8 = BitVec.ofInt 8 y := by
    rw [formatS, BitVec.extractLsb'_cast, BitVec.extractLsb'_append_eq_of_le (by decide),
      BitVec.extractLsb'_append_eq_of_le (by decide)]
    exact Laws.Opcode.low_append _ _
  rw [yField, bits, toInt_ofInt_of_coordFits hy]

theorem rgbField_formatS : rgbField (formatS op x y c) = c := by
  apply rgbBits_inj
  rw [rgbBits_rgbField, formatS, BitVec.extractLsb'_cast, BitVec.extractLsb'_append_eq_of_le (by decide),
    BitVec.extractLsb'_append_eq_of_le (by decide), BitVec.extractLsb'_append_eq_of_le (by decide)]
  exact Laws.Opcode.low_append _ _

end

/-! ### Decoding by the opcode (R71) -/

theorem decodeCmd_set {w : CmdWord} (h : opcodeField w = 2) : decodeCmd w = .set (xField w) (yField w) (rgbField w) := by
  simp only [decodeCmd, h]

theorem decodeCmd_clear {w : CmdWord} (h : opcodeField w = 3) : decodeCmd w = .clear (rgbField w) := by
  simp only [decodeCmd, h]

/-- A coordinate field holds a number of its own width (R56). -/
theorem coordFits_toInt (v : BitVec 8) : coordFits v.toInt = true := by
  simp only [coordFits, Bool.and_eq_true, decide_eq_true_eq]
  exact ⟨v.le_toInt, v.toInt_lt⟩

/-- Only a SET asks anything of its operands, and its coordinates come from fields of 8 bits. -/
theorem wf_decodeCmd (w : CmdWord) : (decodeCmd w).wf = true := by
  unfold decodeCmd
  split
  case h_3 => exact Bool.and_eq_true_iff.2 ⟨coordFits_toInt _, coordFits_toInt _⟩
  all_goals rfl

/-- Settles O4: only SET's coordinates have a range to meet, and `opcodeOf_decodeCmd` gives the opcode. -/
theorem everyWordDecodesByItsOpcode : Obligations.EveryWordDecodesByItsOpcode :=
  fun w => ⟨wf_decodeCmd w, Machine.opcodeOf_decodeCmd w⟩

/-- Settles O1: the fields of the encoded word are the operands; an operation without operands is one closed word. -/
theorem decodeEncodeRoundTrip : Obligations.DecodeEncodeRoundTrip := by
  intro i hi
  cases i with
  | set x y c =>
    obtain ⟨hx, hy⟩ := Bool.and_eq_true_iff.1 hi
    rw [encode, decode, decodeCmd_set (Laws.Opcode.opcodeField_formatS _ x y c), xField_formatS _ _ hx,
      yField_formatS _ _ hy, rgbField_formatS]
  | clear c =>
    rw [encode, decode, decodeCmd_clear (Laws.Opcode.opcodeField_formatC _ c), formatC_eq_formatS, rgbField_formatS]
  | tick p => cases p <;> rfl
  | _ => rfl

/-! ### A word cut into its fields -/

theorem append_fields (w : CmdWord) :
    (w.extractLsb' 44 4 ++ w.extractLsb' 20 24 ++ w.extractLsb' 12 8 ++ w.extractLsb' 4 8 ++ w.extractLsb' 0 4).cast rfl =
      w := by
  iterate 4 rw [BitVec.extractLsb'_append_extractLsb'_eq_extractLsb' (by rfl)]
  exact BitVec.extractLsb'_eq_self

/-- A mask written field by field acts field by field. -/
theorem and_append_fields (w : CmdWord) (unused : BitVec 4) (rgb : BitVec 24) (y x : BitVec 8) (op : BitVec 4) :
    w &&& (unused ++ rgb ++ y ++ x ++ op).cast rfl =
      ((w.extractLsb' 44 4 &&& unused) ++ (w.extractLsb' 20 24 &&& rgb) ++ (w.extractLsb' 12 8 &&& y) ++
        (w.extractLsb' 4 8 &&& x) ++ (w.extractLsb' 0 4 &&& op)).cast rfl := by
  conv_lhs => rw [← append_fields w, BitVec.and_cast]
  simp only [BitVec.and_append]

/-- Format S over a word's own fields clears bits 47:44 (R73). -/
theorem formatS_fields (w : CmdWord) :
    formatS (w.extractLsb' 0 4) (xField w) (yField w) (rgbField w) = w &&& 0x0FFFFFFFFFFF#48 := by
  have mask : 0x0FFFFFFFFFFF#48 =
      (0#4 ++ BitVec.allOnes 24 ++ BitVec.allOnes 8 ++ BitVec.allOnes 8 ++ BitVec.allOnes 4).cast rfl := rfl
  rw [mask, and_append_fields]
  simp only [formatS, rgbBits_rgbField, xField, yField, BitVec.ofInt_toInt, BitVec.and_allOnes, BitVec.and_zero]

/-- Format C over a word's own fields clears bits 47:44 and 19:4 (R74). -/
theorem formatC_fields (w : CmdWord) : formatC (w.extractLsb' 0 4) (rgbField w) = w &&& 0x0FFFFFF0000F#48 := by
  have mask : 0x0FFFFFF0000F#48 = (0#4 ++ BitVec.allOnes 24 ++ 0#8 ++ 0#8 ++ BitVec.allOnes 4).cast rfl := rfl
  rw [mask, and_append_fields]
  simp only [formatC_eq_formatS, formatS, rgbBits_rgbField, BitVec.ofInt_ofNat, BitVec.and_allOnes, BitVec.and_zero]

/-- Format N over a word's own opcode clears bits 47:4 (R72). -/
theorem formatN_fields (w : CmdWord) : formatN (w.extractLsb' 0 4) = w &&& 0x00000000000F#48 := by
  have mask : 0x00000000000F#48 = (0#4 ++ 0#24 ++ 0#8 ++ 0#8 ++ BitVec.allOnes 4).cast rfl := rfl
  rw [mask, and_append_fields]
  simp only [BitVec.and_allOnes, BitVec.and_zero]
  rfl

/-! ### Encoding what a word decodes to (R76) -/

/-- Every opcode but those of SET and CLEAR is written in format N (R72). -/
theorem encode_eq_formatN {i : Instr} {n : Nat} (hi : opcodeOf i = some n) (hset : n ≠ 2) (hclear : n ≠ 3) :
    encode i = .command (formatN (BitVec.ofNat 4 n)) := by
  cases i <;> cases hi
  case set => exact absurd rfl hset
  case clear => exact absurd rfl hclear
  all_goals rfl

theorem ofNat_opcodeField (w : CmdWord) : BitVec.ofNat 4 (opcodeField w) = w.extractLsb' 0 4 := by
  rw [opcodeField, BitVec.ofNat_toNat, BitVec.setWidth_eq]

/-- Settles O2: a word is encoded again in the format of its opcode, over its own fields. -/
theorem encodeDecodeClearsUnusedBits : Obligations.EncodeDecodeClearsUnusedBits := by
  intro w
  have opcode_bits := ofNat_opcodeField w
  by_cases hset : opcodeField w = 2
  · rw [hset] at opcode_bits
    rw [if_pos hset, decodeCmd_set hset, ← formatS_fields, ← opcode_bits]
    rfl
  by_cases hclear : opcodeField w = 3
  · rw [hclear] at opcode_bits
    rw [if_neg hset, if_pos hclear, decodeCmd_clear hclear, ← formatC_fields, ← opcode_bits]
    rfl
  · rw [if_neg hset, if_neg hclear, encode_eq_formatN (Machine.opcodeOf_decodeCmd w) hset hclear, opcode_bits,
      formatN_fields]

/-- Words whose operations are encoded as one word decode to one operation, because `decode` undoes `encode`. -/
theorem decodeCmd_eq_of_encode_eq {v w : CmdWord} (h : encode (decodeCmd v) = encode (decodeCmd w)) :
    decodeCmd v = decodeCmd w := by
  apply Except.ok.inj (ε := DecodeError)
  rw [← decodeEncodeRoundTrip _ (wf_decodeCmd v), ← decodeEncodeRoundTrip _ (wf_decodeCmd w), h]

/-- The bits that the masks of O2 keep are the operand bits of the opcode, each mask read bit by bit. -/
theorem used_of_getLsbD_mask {op i : Nat}
    (h : (if op = 2 then 0x0FFFFFFFFFFF#48 else if op = 3 then 0x0FFFFFF0000F#48 else 0x00000000000F#48).getLsbD i = true) :
    (4 ≤ i ∧ i < 20 → op = 2) ∧ (20 ≤ i ∧ i < 44 → op = 2 ∨ op = 3) ∧ i < 44 := by
  have i_lt : i < 48 := BitVec.lt_of_getLsbD h
  have kept_S : ∀ i < 48, (0x0FFFFFFFFFFF#48).getLsbD i = true → i < 44 := by decide
  have kept_C : ∀ i < 48, (0x0FFFFFF0000F#48).getLsbD i = true → i < 4 ∨ 20 ≤ i ∧ i < 44 := by decide
  have kept_N : ∀ i < 48, (0x00000000000F#48).getLsbD i = true → i < 4 := by decide
  split_ifs at h with hset hclear
  · have := kept_S i i_lt h
    omega
  · have := kept_C i i_lt h
    omega
  · have := kept_N i i_lt h
    omega

/-- Settles O3: the words agree under the mask of O2, so their operations are encoded as one word. -/
theorem unusedBitsAreIgnored : Obligations.UnusedBitsAreIgnored := by
  intro v w hop agree
  apply decodeCmd_eq_of_encode_eq
  rw [encodeDecodeClearsUnusedBits v, encodeDecodeClearsUnusedBits w, hop]
  congr 1
  apply BitVec.eq_of_getLsbD_eq
  intro i _
  rw [BitVec.getLsbD_and, BitVec.getLsbD_and, Bool.eq_iff_iff, Bool.and_eq_true, Bool.and_eq_true, and_congr_left_iff]
  intro used
  obtain ⟨coords, rgb, below⟩ := used_of_getLsbD_mask used
  rw [agree i coords rgb below]

/-- Settles O5: the ten words, evaluated. -/
theorem writtenWordsDecode : Obligations.WrittenWordsDecode := by
  unfold Obligations.WrittenWordsDecode
  decide

/-! ### The assembler's numbers (R84) -/

/-- A field of 8 bits holds a coordinate modulo 256. -/
theorem toNat_ofInt_coord (v : Int) : ((BitVec.ofInt 8 v).toNat : Int) = v % 256 := by
  rw [BitVec.toNat_ofInt]
  omega

theorem toNat_formatS (op : BitVec 4) (x y : Int) (c : Color) :
    ((formatS op x y c).toNat : Int) =
      op.toNat + (x % 256) * 2 ^ 4 + (y % 256) * 2 ^ 12 +
        (c.r.toNat * 65536 + c.g.toNat * 256 + c.b.toNat) * 2 ^ 20 := by
  have hx := toNat_ofInt_coord x
  have hy := toNat_ofInt_coord y
  have hc := toNat_rgbBits c
  simp only [formatS, BitVec.toNat_cast, toNat_append_eq_add, BitVec.toNat_zero]
  omega

theorem toNat_formatC (op : BitVec 4) (c : Color) :
    (formatC op c).toNat = op.toNat + (c.r.toNat * 65536 + c.g.toNat * 256 + c.b.toNat) * 2 ^ 20 := by
  have as_S := toNat_formatS op 0 0 c
  rw [formatC_eq_formatS]
  omega

/-- Settles O6: the command port carries the encoded word, and the formats as numbers are `toNat_formatS` and
`toNat_formatC`. -/
theorem assembledWordsFollowTheTable : Obligations.AssembledWordsFollowTheTable :=
  ⟨fun x y c => ⟨rfl, toNat_formatS 0x2 x y c⟩, fun c => ⟨rfl, toNat_formatC 0x3 c⟩, rfl, rfl, rfl⟩

namespace Machine

/-! ### The reduced command (R82) -/

theorem getLsbD_reduce_low (c : Config) (w : RcWord) {i : Nat} (hi : i < 6) :
    (reduce c w).getLsbD i = w.getLsbD i := by
  rw [reduce, BitVec.getLsbD_cast, BitVec.getLsbD_append, if_pos hi]
  simp [hi]

theorem getLsbD_reduce_six (c : Config) (w : RcWord) : (reduce c w).getLsbD 6 = !w.getLsbD c.cmd6SrcBit := by
  rw [reduce, BitVec.getLsbD_cast, BitVec.getLsbD_append]
  simp

theorem toNat_reduce (c : Config) (w : RcWord) :
    (reduce c w).toNat = (w &&& 0x3F).toNat + (1 - (w.getLsbD c.cmd6SrcBit).toNat) * 2 ^ 6 := by
  have low : (w &&& 0x3F).toNat = w.toNat % 2 ^ 6 := Nat.and_two_pow_sub_one_eq_mod w.toNat 6
  have high (b : Bool) : (!b).toNat = 1 - b.toNat := by cases b <;> rfl
  simp only [reduce, BitVec.toNat_cast, toNat_append_eq_add, BitVec.toNat_ofBool, BitVec.extractLsb'_toNat,
    Nat.shiftRight_zero, high, low]
  omega

/-- Settles O40: the two bit rules, the number they give, and the range of 7 bits; the default source bit is `ofRates`'s. -/
theorem reducedCommandFormula : Obligations.ReducedCommandFormula :=
  ⟨fun c w => ⟨fun _ hi => getLsbD_reduce_low c w hi, getLsbD_reduce_six c w, toNat_reduce c w,
    Nat.le_of_lt_succ (reduce c w).isLt⟩, fun _ _ _ _ => rfl⟩

/-! ### A command beside a tick (R71) -/

/-- An edge that accepts a command beside a tick runs the two in this order. -/
theorem clockEdge_command_tick {e : EdgeIn} {s : State} (hrst : e.rst = false) (hvalid : e.cmdValid = true)
    (hready : cmdReady s = true) (htick : e.rc5Tick = true) :
    clockEdge e s = andThen (exec (decodeCmd e.cmd) (background s)) (exec (.tick e.rc5In)) := by
  have command : acceptedCmd e s = some (decodeCmd e.cmd) := by rw [acceptedCmd_eq, if_pos ⟨hvalid, hready⟩]
  have tick : tickEvent e = some (.tick e.rc5In) := by rw [tickEvent_eq, if_pos htick]
  rw [clockEdge, hrst, command, tick]
  rfl

/-- Settles O12: `andThen` goes on from a next state and keeps a fault. -/
theorem stepRunsCommandThenTick : Obligations.StepRunsCommandThenTick := by
  intro e rest s hpins hrst hvalid hready htick
  have hstep := (step_cons hpins).trans (clockEdge_command_tick hrst hvalid hready htick)
  constructor
  · intro t h
    rw [hstep, h, andThen_next]
  · intro f h
    rw [hstep, h]
    rfl

end Machine

end Sys2Proof
end

section
/-! One tick of the decoder (spec/40_rc5_decoder.md section 2): its outcome in each class of R107, the shifter and its
guard (R114), and TICK as an operation (R101). -/

namespace Sys2Proof.Machine

/-- The elapsed count `e` that a tick works with: the ticks since the last edge, this one included, saturating (R103). -/
def elapsed (d : Decoder) : Nat := min (d.cnt.toNat + 1) 255

theorem satInc_toNat_eq_elapsed (d : Decoder) : (satInc d.cnt).toNat = elapsed d := satInc_toNat d.cnt

/-! ### The shifter (R114) -/

/-- Bit 14 is the accumulator's top bit. -/
theorem guard_iff (a : AccWord) : a.getLsbD 14 = true ↔ 2 ^ 14 ≤ a.toNat := by
  have top : a.getLsbD 14 = a.msb := (BitVec.msb_eq_getLsbD_last a).symm
  rw [top, BitVec.msb_eq_true_iff_two_mul_ge]
  omega

theorem shiftIn_of_guard {a : AccWord} (h : 2 ^ 14 ≤ a.toNat) (b : Bool) : shiftIn a b = a :=
  if_pos ((guard_iff a).2 h)

theorem toNat_shiftIn {a : AccWord} (h : a.toNat < 2 ^ 14) (b : Bool) : (shiftIn a b).toNat = 2 * a.toNat + b.toNat := by
  have clear : ¬a.getLsbD 14 = true := fun hg => absurd ((guard_iff a).1 hg) (by omega)
  rw [shiftIn, if_neg clear, BitVec.toNat_cast, toNat_append_eq_add, BitVec.extractLsb'_toNat, BitVec.toNat_ofBool]
  omega

/-! ### The classes of an edge (R107) -/

section
variable {c : Config} {e : Nat} {a : AccWord}

theorem classify_glitch (he : e < c.pulseMin) (ph : Phase) : classify c e a ph = .glitch := by
  simp [classify, he]

theorem classify_idle (he : c.pulseMin ≤ e) (ph : Phase) : classify c e 0 ph = .start := by
  simp [classify, not_lt.2 he]

theorem classify_ne_start (ha : a ≠ 0) (ph : Phase) : classify c e a ph ≠ .start := by
  unfold classify
  split_ifs
  · nofun
  · cases ph <;> nofun
  · cases ph <;> nofun

/-- The class of a short interval: the phase tells a boundary transition from a mid-bit one. -/
theorem classify_short (ha : a ≠ 0) (hmin : c.pulseMin ≤ e) (hmid : e ≤ c.pulseMid) :
    classify c e a .mid = .boundary ∧ classify c e a .bnd = .midShort := by
  simp only [classify, if_neg (not_lt.2 hmin), if_neg ha, if_pos hmid, and_self]

/-- The class of a long interval: good after a mid-bit transition only. -/
theorem classify_long (ha : a ≠ 0) (hmin : c.pulseMin ≤ e) (hmid : c.pulseMid < e) :
    classify c e a .mid = .midLong ∧ classify c e a .bnd = .malformed := by
  simp only [classify, if_neg (not_lt.2 hmin), if_neg ha, if_neg (not_le.2 hmid), and_self]

end

/-! ### The decoder after one tick -/

section
variable {c : Config} {p : Bool} {d : Decoder}

/-- No edge and no timeout: only the counter moves (R103, R106). -/
theorem tickDecoder_count (hlvl : inputStage c p = d.lvl) (hmax : elapsed d ≤ c.pulseMax) :
    tickDecoder c p d = ({ d with cnt := BitVec.ofNat 8 (elapsed d) }, none) := by
  rw [tickDecoder_quiet hlvl, satInc_toNat_eq_elapsed, timeoutStage_before _ hmax]
  rfl

/-- A timeout and no edge (R104). -/
theorem tickDecoder_timeout (hlvl : inputStage c p = d.lvl) (hmax : c.pulseMax < elapsed d) :
    tickDecoder c p d =
      ({ d with acc := 0, cnt := BitVec.ofNat 8 (elapsed d) },
        if startValid d.acc then some (d.acc.extractLsb' 0 14) else none) := by
  rw [tickDecoder_quiet hlvl, satInc_toNat_eq_elapsed, timeoutStage_after _ hmax]
  rfl

/-- An edge without a timeout publishes nothing, and its class decides the accumulator and the phase (R106, R107). -/
theorem tickDecoder_edge_of_class (hlvl : inputStage c p ≠ d.lvl) (hmax : elapsed d ≤ c.pulseMax) {k : EdgeClass}
    (hclass : classify c (elapsed d) d.acc d.phase = k) :
    tickDecoder c p d =
      ({ acc := (edgeStage (inputStage c p) d.acc d.phase k).1, lvl := inputStage c p,
         phase := (edgeStage (inputStage c p) d.acc d.phase k).2, cnt := 0 }, none) := by
  simp only [tickDecoder_edge hlvl, satInc_toNat_eq_elapsed, timeoutStage_before _ hmax, hclass]

/-- An edge that meets an accumulator which is empty, or which its own timeout empties, starts a word (R109); what the
timeout publishes is published (R104). -/
theorem tickDecoder_start (hlvl : inputStage c p ≠ d.lvl) (hmin : c.pulseMin ≤ elapsed d)
    (hempty : (timeoutStage c (elapsed d) d.acc).1 = 0) :
    tickDecoder c p d =
      ({ acc := if inputStage c p then 1 else 0, lvl := inputStage c p, phase := .mid, cnt := 0 },
        (timeoutStage c (elapsed d) d.acc).2) := by
  simp only [tickDecoder_edge hlvl, satInc_toNat_eq_elapsed, hempty, classify_idle hmin, edgeStage]
  cases inputStage c p <;> rfl

/-- An empty accumulator stays empty through the timeout stage and publishes nothing. -/
theorem timeoutStage_idle (c : Config) (e : Nat) : timeoutStage c e 0 = (0, none) := by
  unfold timeoutStage
  split <;> rfl

/-- A glitch empties the accumulator and keeps the phase (R108). -/
theorem tickDecoder_glitch (hlvl : inputStage c p ≠ d.lvl) (hmax : elapsed d ≤ c.pulseMax) (hmin : elapsed d < c.pulseMin) :
    tickDecoder c p d = ({ acc := 0, lvl := inputStage c p, phase := d.phase, cnt := 0 }, none) :=
  tickDecoder_edge_of_class hlvl hmax (classify_glitch hmin _)

/-- Short from a mid-bit transition: a boundary, and no bit (R110). -/
theorem tickDecoder_boundary (hlvl : inputStage c p ≠ d.lvl) (hacc : d.acc ≠ 0) (hphase : d.phase = .mid)
    (hmin : c.pulseMin ≤ elapsed d) (hmid : elapsed d ≤ c.pulseMid) (hmax : elapsed d ≤ c.pulseMax) :
    tickDecoder c p d = ({ acc := d.acc, lvl := inputStage c p, phase := .bnd, cnt := 0 }, none) :=
  tickDecoder_edge_of_class hlvl hmax (k := .boundary) (by rw [hphase, (classify_short hacc hmin hmid).1])

/-- Short from a boundary transition: the level is the next bit (R111). -/
theorem tickDecoder_midShort (hlvl : inputStage c p ≠ d.lvl) (hacc : d.acc ≠ 0) (hphase : d.phase = .bnd)
    (hmin : c.pulseMin ≤ elapsed d) (hmid : elapsed d ≤ c.pulseMid) (hmax : elapsed d ≤ c.pulseMax) :
    tickDecoder c p d =
      ({ acc := shiftIn d.acc (inputStage c p), lvl := inputStage c p, phase := .mid, cnt := 0 }, none) :=
  tickDecoder_edge_of_class hlvl hmax (k := .midShort) (by rw [hphase, (classify_short hacc hmin hmid).2])

/-- Long from a mid-bit transition: the level is the next bit (R112). -/
theorem tickDecoder_midLong (hlvl : inputStage c p ≠ d.lvl) (hacc : d.acc ≠ 0) (hphase : d.phase = .mid)
    (hmin : c.pulseMin ≤ elapsed d) (hmid : c.pulseMid < elapsed d) (hmax : elapsed d ≤ c.pulseMax) :
    tickDecoder c p d =
      ({ acc := shiftIn d.acc (inputStage c p), lvl := inputStage c p, phase := .mid, cnt := 0 }, none) := by
  rw [tickDecoder_edge_of_class hlvl hmax (k := .midLong) (by rw [hphase, (classify_long hacc hmin hmid).1]), hphase]
  rfl

/-- Long from a boundary transition: the word is discarded (R113). -/
theorem tickDecoder_malformed (hlvl : inputStage c p ≠ d.lvl) (hacc : d.acc ≠ 0) (hphase : d.phase = .bnd)
    (hmin : c.pulseMin ≤ elapsed d) (hmid : c.pulseMid < elapsed d) (hmax : elapsed d ≤ c.pulseMax) :
    tickDecoder c p d = ({ acc := 0, lvl := inputStage c p, phase := .bnd, cnt := 0 }, none) := by
  rw [tickDecoder_edge_of_class hlvl hmax (k := .malformed) (by rw [hphase, (classify_long hacc hmin hmid).2]), hphase]
  rfl

/-- After a timeout the accumulator holds at most the first bit of a new word. -/
theorem tickDecoder_timeout_acc (hmax : c.pulseMax < elapsed d) : (tickDecoder c p d).1.acc.toNat ≤ 1 := by
  by_cases hlvl : inputStage c p = d.lvl
  · rw [tickDecoder_timeout hlvl hmax]
    exact Nat.zero_le 1
  · by_cases hmin : elapsed d < c.pulseMin
    · simp [tickDecoder_edge hlvl, satInc_toNat_eq_elapsed, timeoutStage_after _ hmax, classify_glitch hmin, edgeStage]
    · rw [tickDecoder_start hlvl (not_lt.1 hmin) (by rw [timeoutStage_after _ hmax])]
      cases inputStage c p
      · exact Nat.zero_le 1
      · exact le_rfl

/-- With the guard set, a tick without a timeout keeps the accumulator, unless it is a glitch or a malformed edge, which
empty it (R114). -/
theorem tickDecoder_guarded (hguard : 2 ^ 14 ≤ d.acc.toNat) (hmax : elapsed d ≤ c.pulseMax) :
    (tickDecoder c p d).1.acc = d.acc ∨
      ((tickDecoder c p d).1.acc = 0 ∧ inputStage c p ≠ d.lvl ∧
        (classify c (elapsed d) d.acc d.phase = .glitch ∨ classify c (elapsed d) d.acc d.phase = .malformed)) := by
  by_cases hlvl : inputStage c p = d.lvl
  · exact .inl (by rw [tickDecoder_count hlvl hmax])
  have collecting : d.acc ≠ 0 := fun h => by simp [h] at hguard
  have kept : shiftIn d.acc (inputStage c p) = d.acc := shiftIn_of_guard hguard _
  cases hclass : classify c (elapsed d) d.acc d.phase with
  | glitch => exact .inr ⟨by rw [tickDecoder_edge_of_class hlvl hmax hclass, edgeStage], hlvl, .inl rfl⟩
  | start => exact absurd hclass (classify_ne_start collecting _)
  | boundary => exact .inl (by rw [tickDecoder_edge_of_class hlvl hmax hclass, edgeStage])
  | midShort => exact .inl (by rw [tickDecoder_edge_of_class hlvl hmax hclass, edgeStage, kept])
  | midLong => exact .inl (by rw [tickDecoder_edge_of_class hlvl hmax hclass, edgeStage, kept])
  | malformed => exact .inr ⟨by rw [tickDecoder_edge_of_class hlvl hmax hclass, edgeStage], hlvl, .inr rfl⟩

end

/-! ### TICK as an operation (R101) -/

/-- TICK completes with the decoder after the tick and the word it publishes. -/
theorem exec_tick {p : Bool} {s : State} {d : Decoder} {pub : Option RcWord} (h : tickDecoder s.cfg p s.dec = (d, pub)) :
    exec (.tick p) s = .next (publishIf pub (s.withDec d)) := by
  rw [exec, execTick, h]

/-- What the validator accepts becomes the mailbox's word; else the mailbox is kept (R104, R105). -/
theorem publishIf_startValid (a : AccWord) (s : State) :
    publishIf (if startValid a then some (a.extractLsb' 0 14) else none) s =
      s.withMbox (if a.toNat / 2 ^ 12 = 3 then { valid := true, word := a.extractLsb' 0 14 } else s.mbox) := by
  by_cases hv : startValid a = true
  · rw [if_pos hv, if_pos ((startValid_iff a).1 hv)]
    rfl
  · rw [if_neg hv, if_neg (mt (startValid_iff a).2 hv)]
    rfl

/-- The thresholds of an admitted build (W4). -/
theorem Build.thresholds (b : Build) :
    1 ≤ b.cfg.pulseMin ∧ b.cfg.pulseMin < b.cfg.pulseMid ∧ b.cfg.pulseMid < b.cfg.pulseMax ∧ b.cfg.pulseMax ≤ 254 := by
  obtain ⟨-, -, -, hW4, -⟩ := b.admitted
  exact hW4

/-! ### The obligations -/

/-- Settles O39: the shifter by its arithmetic; a tick by the timeout first and the class of the edge after it. -/
theorem shifterNeverLosesABit : Obligations.ShifterNeverLosesABit := by
  refine ⟨fun a b h => toNat_shiftIn h b, fun a b h => ?_, fun a b h => shiftIn_of_guard h b, fun c p d hguard => ?_⟩
  · by_cases hg : a.toNat < 2 ^ 14
    · rw [toNat_shiftIn hg]
      omega
    · rw [shiftIn_of_guard (not_lt.1 hg)]
      exact not_lt.1 hg
  · rw [satInc_toNat_eq_elapsed]
    by_cases hmax : c.pulseMax < elapsed d
    · exact .inr ⟨tickDecoder_timeout_acc hmax, .inl hmax⟩
    · obtain kept | ⟨emptied, cause⟩ := tickDecoder_guarded hguard (not_lt.1 hmax)
      · exact .inl kept
      · exact .inr ⟨by simp [emptied], .inr cause⟩

/-- Settles O29: the level is the one sampled, and a published word is the accumulator's low 14 bits. -/
theorem tickChangesDecoderAndMailboxAlone : Obligations.TickChangesDecoderAndMailboxAlone := by
  intro p s
  obtain ⟨d, pub, htick⟩ : ∃ d pub, tickDecoder s.cfg p s.dec = (d, pub) := ⟨_, _, rfl⟩
  have hlvl : d.lvl = inputStage s.cfg p := by rw [← tickDecoder_lvl s.cfg p s.dec, htick]
  cases pub with
  | none => exact ⟨_, exec_tick htick, hlvl, .inl rfl, rfl⟩
  | some w =>
    obtain ⟨-, -, rfl⟩ := tickDecoder_publishes (congrArg Prod.snd htick)
    exact ⟨_, exec_tick htick, hlvl, .inr rfl, rfl⟩

/-- Settles O30: such a tick of the decoder publishes nothing. -/
theorem quietTickOnlyCounts : Obligations.QuietTickOnlyCounts :=
  fun _ _ hlvl hmax => exec_tick (tickDecoder_count hlvl hmax)

/-- Settles O31: the timeout stage, with the validator read as a range of numbers. -/
theorem timeoutPublishesOrDiscards : Obligations.TimeoutPublishesOrDiscards := by
  intro p s hlvl hmax
  rw [exec_tick (tickDecoder_timeout hlvl hmax), publishIf_startValid]
  rfl

/-- Settles O32: the timeout empties the accumulator, so the edge, which is no glitch by W4, starts a word. -/
theorem timeoutRunsBeforeTheEdge : Obligations.TimeoutRunsBeforeTheEdge := by
  intro p s hlvl (hmax : s.cfg.pulseMax < elapsed s.dec)
  obtain ⟨-, hmin, hmid, -⟩ := s.build.thresholds
  have late : s.cfg.pulseMin ≤ elapsed s.dec := ((hmin.trans hmid).trans hmax).le
  rw [exec_tick (tickDecoder_start hlvl late (by rw [timeoutStage_after _ hmax])), timeoutStage_after _ hmax,
    publishIf_startValid]
  rfl

/-- Settles O33: by W4 a glitch comes before the timeout. -/
theorem glitchDiscardsTheWord : Obligations.GlitchDiscardsTheWord := by
  intro p s hlvl hglitch
  obtain ⟨-, hmin, hmid, -⟩ := s.build.thresholds
  exact exec_tick (tickDecoder_glitch hlvl (hglitch.trans (hmin.trans hmid)).le hglitch)

/-- Settles O34: whether the timeout has passed or not, an empty accumulator publishes nothing. -/
theorem idleEdgeStartsAWord : Obligations.IdleEdgeStartsAWord := by
  intro p s hlvl hidle hmin
  rw [exec_tick (tickDecoder_start hlvl hmin (by rw [hidle, timeoutStage_idle])), hidle, timeoutStage_idle]
  rfl

/-- Settles O35: by W4 a short interval ends before the timeout. -/
theorem shortAfterMidIsABoundary : Obligations.ShortAfterMidIsABoundary := by
  intro p s hlvl hacc hphase hmin hmid
  obtain ⟨-, -, hmax, -⟩ := s.build.thresholds
  exact exec_tick (tickDecoder_boundary hlvl hacc hphase hmin hmid (hmid.trans hmax.le))

/-- Settles O36: by W4 a short interval ends before the timeout. -/
theorem shortAfterBoundaryShifts : Obligations.ShortAfterBoundaryShifts := by
  intro p s hlvl hacc hphase hmin hmid
  obtain ⟨-, -, hmax, -⟩ := s.build.thresholds
  exact exec_tick (tickDecoder_midShort hlvl hacc hphase hmin hmid (hmid.trans hmax.le))

/-- Settles O37: by W4 a long interval is no glitch. -/
theorem longAfterMidShifts : Obligations.LongAfterMidShifts := by
  intro p s hlvl hacc hphase hmid hmax
  obtain ⟨-, hmin, -, -⟩ := s.build.thresholds
  exact exec_tick (tickDecoder_midLong hlvl hacc hphase (hmin.trans hmid).le hmid hmax)

/-- Settles O38: by W4 a long interval is no glitch. -/
theorem longAfterBoundaryIsMalformed : Obligations.LongAfterBoundaryIsMalformed := by
  intro p s hlvl hacc hphase hmid hmax
  obtain ⟨-, hmin, -, -⟩ := s.build.thresholds
  exact exec_tick (tickDecoder_malformed hlvl hacc hphase (hmin.trans hmid).le hmid hmax)

end Sys2Proof.Machine
end

section
/-! Runs of ticks, and a frame tick by tick (spec/40_rc5_decoder.md R120, R121): between two mid-bit transitions the decoder
takes one bit of the word, and after the last one it waits for the timeout. -/

namespace Sys2Proof.Machine

/-! ### Runs of ticks -/

/-- The pin level of a logical level is read back as that level (R18, R102). -/
@[simp] theorem inputStage_pinOf (c : Config) (v : Bool) : inputStage c (pinOf c v) = v := by
  simp [inputStage, pinOf]

theorem decodeTicks_cons {c : Config} {v : Bool} {d d' : Decoder} {pub : Option RcWord}
    (h : tickDecoder c (pinOf c v) d = (d', pub)) (vs : List Bool) :
    decodeTicks c (v :: vs) d = ((decodeTicks c vs d').1, pub.toList ++ (decodeTicks c vs d').2) := by
  rw [decodeTicks, h]

/-- A run of ticks in two parts. -/
theorem decodeTicks_append {c : Config} {us : List Bool} {d d' : Decoder} {pubs : List RcWord}
    (h : decodeTicks c us d = (d', pubs)) (vs : List Bool) :
    decodeTicks c (us ++ vs) d = ((decodeTicks c vs d').1, pubs ++ (decodeTicks c vs d').2) := by
  induction us generalizing d d' pubs with
  | nil =>
    cases h
    rfl
  | cons u us ih =>
    cases h
    rw [List.cons_append, decodeTicks_cons rfl, ih rfl, ← List.append_assoc]
    rfl

/-! ### A level held -/

/-- The decoder when the line has been at level `v` for `n` ticks, the edge's tick included. -/
def held (a : AccWord) (v : Bool) (ph : Phase) (n : Nat) : Decoder :=
  { acc := a, lvl := v, phase := ph, cnt := BitVec.ofNat 8 (n - 1) }

section
variable {b : Build} {a : AccWord} {u v : Bool} {ph : Phase} {n : Nat}

/-- The next tick's elapsed count is the ticks the level has lasted (R103). -/
theorem elapsed_held (hpos : 1 ≤ n) (hn : n ≤ 255) : elapsed (held a v ph n) = n := by
  simp only [elapsed, held, BitVec.toNat_ofNat]
  omega

/-- Up to the timeout a tick at the level held only counts. -/
theorem tickDecoder_held (hpos : 1 ≤ n) (hmax : n ≤ b.cfg.pulseMax) :
    tickDecoder b.cfg (pinOf b.cfg v) (held a v ph n) = (held a v ph (n + 1), none) := by
  obtain ⟨-, -, -, hcnt⟩ := b.thresholds
  have he : elapsed (held a v ph n) = n := elapsed_held hpos (by omega)
  rw [tickDecoder_count (inputStage_pinOf b.cfg v) (by omega), he]
  rfl

theorem decodeTicks_held {m : Nat} (hpos : 1 ≤ m) (hmax : m + n ≤ b.cfg.pulseMax + 1) :
    decodeTicks b.cfg (List.replicate n v) (held a v ph m) = (held a v ph (m + n), []) := by
  induction n generalizing m with
  | zero => rfl
  | succ n ih =>
    rw [List.replicate_succ, decodeTicks_cons (tickDecoder_held hpos (by omega)), ih (by omega) (by omega),
      Nat.add_assoc, Nat.add_comm 1 n]
    rfl

/-- The line moves to level `v` by an edge and stays there for `n` ticks. -/
theorem decodeTicks_edge_held {d : Decoder} {pub : Option RcWord}
    (hedge : tickDecoder b.cfg (pinOf b.cfg v) d = (held a v ph 1, pub)) (hpos : 1 ≤ n) (hmax : n ≤ b.cfg.pulseMax + 1) :
    decodeTicks b.cfg (List.replicate n v) d = (held a v ph n, pub.toList) := by
  obtain ⟨n, rfl⟩ := Nat.exists_eq_add_of_le hpos
  rw [Nat.add_comm, List.replicate_succ, decodeTicks_cons hedge, decodeTicks_held le_rfl (by omega), List.append_nil,
    Nat.add_comm]

/-- An edge after `n` ticks, none of them past the timeout: its class decides the rest (R107). -/
theorem tickDecoder_held_edge (hu : u ≠ v) (hpos : 1 ≤ n) (hmax : n ≤ b.cfg.pulseMax) {k : EdgeClass}
    (hclass : classify b.cfg n a ph = k) :
    tickDecoder b.cfg (pinOf b.cfg u) (held a v ph n) = (held (edgeStage u a ph k).1 u (edgeStage u a ph k).2 1, none) := by
  obtain ⟨-, -, -, hcnt⟩ := b.thresholds
  have he : elapsed (held a v ph n) = n := elapsed_held hpos (by omega)
  have hedge : inputStage b.cfg (pinOf b.cfg u) ≠ (held a v ph n).lvl := by rwa [inputStage_pinOf]
  rw [← he] at hclass
  rw [tickDecoder_edge_of_class hedge (by omega) hclass, inputStage_pinOf]
  rfl

/-- A short interval from a mid-bit transition (R110). -/
theorem tickDecoder_held_boundary (ha : a ≠ 0) (hu : u ≠ v) (hmin : b.cfg.pulseMin ≤ n) (hmid : n ≤ b.cfg.pulseMid) :
    tickDecoder b.cfg (pinOf b.cfg u) (held a v .mid n) = (held a u .bnd 1, none) := by
  obtain ⟨hpos, -, hmax, -⟩ := b.thresholds
  exact tickDecoder_held_edge hu (hpos.trans hmin) (hmid.trans hmax.le) (classify_short ha hmin hmid).1

/-- A short interval from a boundary transition (R111). -/
theorem tickDecoder_held_midShort (ha : a ≠ 0) (hu : u ≠ v) (hmin : b.cfg.pulseMin ≤ n) (hmid : n ≤ b.cfg.pulseMid) :
    tickDecoder b.cfg (pinOf b.cfg u) (held a v .bnd n) = (held (shiftIn a u) u .mid 1, none) := by
  obtain ⟨hpos, -, hmax, -⟩ := b.thresholds
  exact tickDecoder_held_edge hu (hpos.trans hmin) (hmid.trans hmax.le) (classify_short ha hmin hmid).2

/-- A long interval from a mid-bit transition (R112). -/
theorem tickDecoder_held_midLong (ha : a ≠ 0) (hu : u ≠ v) (hmid : b.cfg.pulseMid < n) (hmax : n ≤ b.cfg.pulseMax) :
    tickDecoder b.cfg (pinOf b.cfg u) (held a v .mid n) = (held (shiftIn a u) u .mid 1, none) := by
  obtain ⟨hpos, hmin, -⟩ := b.thresholds
  have hmin' : b.cfg.pulseMin ≤ n := (hmin.trans hmid).le
  exact tickDecoder_held_edge hu (hpos.trans hmin') hmax (classify_long ha hmin' hmid).1

/-- The tick at which a level has lasted longer than `PULSE_MAX` (R104). -/
theorem tickDecoder_held_timeout :
    tickDecoder b.cfg (pinOf b.cfg v) (held a v ph (b.cfg.pulseMax + 1)) =
      ({ held a v ph (b.cfg.pulseMax + 1) with acc := 0, cnt := BitVec.ofNat 8 (b.cfg.pulseMax + 1) },
        if startValid a then some (a.extractLsb' 0 14) else none) := by
  obtain ⟨-, -, -, hcnt⟩ := b.thresholds
  have he : elapsed (held a v ph (b.cfg.pulseMax + 1)) = b.cfg.pulseMax + 1 := elapsed_held (by omega) (by omega)
  rw [tickDecoder_timeout (inputStage_pinOf b.cfg v) (by omega), he]
  rfl

end

/-! ### The bits received so far -/

/-- The accumulator once bit `k` of the word has been received: the bits 13 down to `k`. -/
def receivedBits (w : RcWord) (k : Nat) : AccWord := BitVec.ofNat 15 (w.toNat / 2 ^ k)

theorem toNat_receivedBits (w : RcWord) (k : Nat) : (receivedBits w k).toNat = w.toNat / 2 ^ k := by
  have hw : w.toNat < 2 ^ 14 := w.isLt
  have hle : w.toNat / 2 ^ k ≤ w.toNat := Nat.div_le_self _ _
  rw [receivedBits, BitVec.toNat_ofNat, Nat.mod_eq_of_lt (by omega)]

/-- Bit `k` is shifted in behind the bits above it (R114). -/
theorem shiftIn_receivedBits (w : RcWord) (k : Nat) : shiftIn (receivedBits w (k + 1)) (w.getLsbD k) = receivedBits w k := by
  have hw : w.toNat < 2 ^ 14 := w.isLt
  have hhalf : w.toNat / 2 ^ (k + 1) = w.toNat / 2 ^ k / 2 := by rw [Nat.pow_succ, Nat.div_div_eq_div_mul]
  have hle : w.toNat / 2 ^ k ≤ w.toNat := Nat.div_le_self _ _
  have hbit : (w.getLsbD k).toNat = w.toNat / 2 ^ k % 2 := Nat.toNat_testBit w.toNat k
  apply BitVec.eq_of_toNat_eq
  rw [toNat_shiftIn (by rw [toNat_receivedBits]; omega), toNat_receivedBits, toNat_receivedBits, hbit, hhalf]
  omega

section
variable {w : RcWord} (h13 : w.getLsbD 13 = true)
include h13

/-- A word with S1 = 1 leaves the accumulator empty at no bit. -/
theorem receivedBits_ne_zero {k : Nat} (hk : k ≤ 13) : receivedBits w k ≠ 0 := by
  have top : 2 ^ 13 ≤ w.toNat := Nat.ge_two_pow_of_testBit h13
  have pos : 0 < w.toNat / 2 ^ k := Nat.div_pos ((Nat.pow_le_pow_right two_pos hk).trans top) (Nat.two_pow_pos k)
  intro h
  rw [← toNat_receivedBits, h] at pos
  exact absurd pos (lt_irrefl 0)

/-- The first bit, S1, is what an edge to level 1 starts a word with (R109). -/
theorem receivedBits_start : receivedBits w 13 = 1 := by
  have top : 2 ^ 13 ≤ w.toNat := Nat.ge_two_pow_of_testBit h13
  have hw : w.toNat < 2 ^ 14 := w.isLt
  have one : (1 : AccWord).toNat = 1 := rfl
  apply BitVec.eq_of_toNat_eq
  rw [toNat_receivedBits, one]
  omega

/-- At the end of a frame the accumulator holds the word, of which the validator then asks bit 12 (R105). -/
theorem publish_receivedBits :
    (if startValid (receivedBits w 0) then some ((receivedBits w 0).extractLsb' 0 14) else none) =
      if w.getLsbD 12 then some w else none := by
  have whole : (receivedBits w 0).toNat = w.toNat := by rw [toNat_receivedBits, Nat.pow_zero, Nat.div_one]
  have word : ((receivedBits w 0).extractLsb' 0 14 : RcWord) = w := by
    apply BitVec.eq_of_toNat_eq
    rw [BitVec.extractLsb'_toNat, whole, Nat.shiftRight_zero, Nat.mod_eq_of_lt w.isLt]
  have valid : startValid (receivedBits w 0) = w.getLsbD 12 := by
    have top : 2 ^ 13 ≤ w.toNat := Nat.ge_two_pow_of_testBit h13
    have hw : w.toNat < 2 ^ 14 := w.isLt
    have h12 : w.getLsbD 12 = decide (w.toNat / 2 ^ 12 % 2 = 1) := Nat.testBit_eq_decide_div_mod_eq
    rw [Bool.eq_iff_iff, startValid_iff, whole, h12, decide_eq_true_iff]
    omega
  rw [valid, word]

end

/-! ### From one mid-bit transition to the next -/

/-- The next tick at the level of bit `k` is that bit's mid-bit transition: it takes the bit, and publishes `pub`. -/
def AtMidBit (c : Config) (w : RcWord) (k : Nat) (d : Decoder) (pub : Option RcWord) : Prop :=
  tickDecoder c (pinOf c (w.getLsbD k)) d = (held (receivedBits w k) (w.getLsbD k) .mid 1, pub)

/-- The levels from the mid-bit transition of bit `k + 1` to that of bit `k`. -/
def bitInterval (w : RcWord) (x y : Nat → Nat) (k : Nat) : List Bool :=
  if w.getLsbD k = w.getLsbD (k + 1) then
    List.replicate (x k) (w.getLsbD (k + 1)) ++ List.replicate (y k) (!w.getLsbD (k + 1))
  else List.replicate (x k) (w.getLsbD (k + 1))

theorem frameBody_succ (w : RcWord) (x y : Nat → Nat) (k : Nat) :
    frameBody w x y (k + 1) = bitInterval w x y k ++ frameBody w x y k := rfl

/-- The levels from the mid-bit transition of bit 0 on, with `q` ticks at the idle level. -/
def frameEnd (w : RcWord) (z q : Nat) : List Bool :=
  (if w.getLsbD 0 then List.replicate z true else []) ++ List.replicate q false

theorem frameSamples_eq (w : RcWord) (x y : Nat → Nat) (z q : Nat) :
    frameSamples w x y z q = frameBody w x y 13 ++ frameEnd w z q :=
  List.append_assoc _ _ _

section
variable {b : Build} {w : RcWord} {x y : Nat → Nat} {z : Nat} {d : Decoder} {pub : Option RcWord}

/-- S1's rise, met by an idle decoder or after a timeout (R109, R120 (a)); by W4 a timeout is no glitch. -/
theorem atMidBit_start (h13 : w.getLsbD 13 = true) (hlvl : d.lvl = false)
    (hidle : (d.acc = 0 ∧ b.cfg.pulseMin ≤ elapsed d) ∨ b.cfg.pulseMax < elapsed d) :
    AtMidBit b.cfg w 13 d (tickDecoder b.cfg (pinOf b.cfg true) d).2 := by
  obtain ⟨-, hmin, hmid, -⟩ := b.thresholds
  have hedge : inputStage b.cfg (pinOf b.cfg true) ≠ d.lvl := by simp [hlvl]
  have late : b.cfg.pulseMin ≤ elapsed d := by omega
  have empty : (timeoutStage b.cfg (elapsed d) d.acc).1 = 0 := by
    obtain ⟨hacc, -⟩ | hmax := hidle
    · rw [hacc, timeoutStage_idle]
    · rw [timeoutStage_after _ hmax]
  rw [AtMidBit, h13, receivedBits_start h13, tickDecoder_start hedge late empty, inputStage_pinOf]
  rfl

/-- Between two mid-bit transitions the decoder takes one bit: by a boundary and a second short interval if the bit repeats
the one before it (R110, R111), by one long interval if not (R112). -/
theorem decodeTicks_bitInterval (h13 : w.getLsbD 13 = true) (hfit : intervalsFit b.cfg w x y z) {k : Nat} (hk : k < 13)
    (hd : AtMidBit b.cfg w (k + 1) d pub) :
    ∃ d', decodeTicks b.cfg (bitInterval w x y k) d = (d', pub.toList) ∧ AtMidBit b.cfg w k d' none := by
  obtain ⟨hpos, hmin, hmid, -⟩ := b.thresholds
  obtain ⟨hbits, -⟩ := hfit
  have collecting : receivedBits w (k + 1) ≠ 0 := receivedBits_ne_zero h13 hk
  have hinterval := hbits k hk
  by_cases heq : w.getLsbD k = w.getLsbD (k + 1)
  · rw [if_pos heq] at hinterval
    obtain ⟨⟨hxmin, hxmid⟩, hymin, hymid⟩ := hinterval
    have hfirst := decodeTicks_edge_held hd (n := x k) (by omega) (by omega)
    have hboundary := tickDecoder_held_boundary collecting (Bool.not_ne_self (w.getLsbD (k + 1))) hxmin hxmid
    have hsecond := decodeTicks_edge_held hboundary (n := y k) (by omega) (by omega)
    refine ⟨held (receivedBits w (k + 1)) (!w.getLsbD (k + 1)) .bnd (y k), ?_, ?_⟩
    · rw [bitInterval, if_pos heq, decodeTicks_append hfirst, hsecond, Option.toList_none, List.append_nil]
    · rw [AtMidBit, tickDecoder_held_midShort collecting (by simp [heq]) hymin hymid, shiftIn_receivedBits]
  · rw [if_neg heq] at hinterval
    obtain ⟨hxmid, hxmax⟩ := hinterval
    refine ⟨held (receivedBits w (k + 1)) (w.getLsbD (k + 1)) .mid (x k), ?_, ?_⟩
    · rw [bitInterval, if_neg heq, decodeTicks_edge_held hd (by omega) (by omega)]
    · rw [AtMidBit, tickDecoder_held_midLong collecting heq hxmid hxmax, shiftIn_receivedBits]

/-- After bit 0 the line falls to the idle level, at the mid-bit transition or by a boundary after it, and is held there. -/
theorem decodeTicks_frameEnd (h13 : w.getLsbD 13 = true) (hfit : intervalsFit b.cfg w x y z)
    (hd : AtMidBit b.cfg w 0 d pub) :
    ∃ ph, decodeTicks b.cfg (frameEnd w z (b.cfg.pulseMax + 1)) d =
      (held (receivedBits w 0) false ph (b.cfg.pulseMax + 1), pub.toList) := by
  obtain ⟨hpos, hmin, hmid, -⟩ := b.thresholds
  obtain ⟨-, hlast⟩ := hfit
  cases h0 : w.getLsbD 0 with
  | false =>
    rw [AtMidBit, h0] at hd
    have hfall := decodeTicks_edge_held hd (n := b.cfg.pulseMax + 1) (by omega) le_rfl
    refine ⟨.mid, ?_⟩
    rw [frameEnd, h0]
    exact hfall
  | true =>
    obtain ⟨hzmin, hzmid⟩ := hlast h0
    rw [AtMidBit, h0] at hd
    have hhigh := decodeTicks_edge_held hd (n := z) (by omega) (by omega)
    have hboundary := tickDecoder_held_boundary (u := false) (receivedBits_ne_zero h13 (Nat.zero_le 13))
      Bool.false_ne_true hzmin hzmid
    have hfall := decodeTicks_edge_held hboundary (n := b.cfg.pulseMax + 1) (by omega) le_rfl
    refine ⟨.bnd, ?_⟩
    rw [frameEnd, h0, if_pos rfl, decodeTicks_append hhigh, hfall, Option.toList_none, List.append_nil]

/-- From the mid-bit transition of bit `k` to the last tick before the timeout: the decoder takes the bits down to 0 and
publishes nothing after the first tick. -/
theorem decodeTicks_frame (h13 : w.getLsbD 13 = true) (hfit : intervalsFit b.cfg w x y z) {k : Nat} (hk : k ≤ 13)
    (hd : AtMidBit b.cfg w k d pub) :
    ∃ ph, decodeTicks b.cfg (frameBody w x y k ++ frameEnd w z (b.cfg.pulseMax + 1)) d =
      (held (receivedBits w 0) false ph (b.cfg.pulseMax + 1), pub.toList) := by
  induction k generalizing d pub with
  | zero => exact decodeTicks_frameEnd h13 hfit hd
  | succ k ih =>
    obtain ⟨d', hinterval, hmidBit⟩ := decodeTicks_bitInterval h13 hfit hk hd
    obtain ⟨ph, hrest⟩ := ih (Nat.le_of_succ_le hk) hmidBit
    refine ⟨ph, ?_⟩
    rw [frameBody_succ, List.append_assoc, decodeTicks_append hinterval, hrest, Option.toList_none, List.append_nil]

end

/-- Settles O44: the frame brings the word into the accumulator, bit by bit, and the tick after it is the timeout. -/
theorem frameIsDecoded : Obligations.FrameIsDecoded := by
  intro b w x y z d h13 hfit hlvl hidle
  obtain ⟨ph, hframe⟩ := decodeTicks_frame h13 hfit le_rfl (atMidBit_start h13 hlvl hidle)
  rw [← frameSamples_eq] at hframe
  rw [hframe]
  refine ⟨rfl, ?_⟩
  rw [← publish_receivedBits h13]
  exact tickDecoder_held_timeout

end Sys2Proof.Machine
end

section
/-! The host's frame at the ports (spec/30_encoding.md R81, R85): its statements are the ticks of a frame of R120 between two
idle stretches, and a run of tick edges is a run of ticks, whatever the rest of the block does (R123). -/

namespace Sys2Proof.Machine

/-! ### A run of tick edges -/

/-- The edge of a TICK statement carries that tick and no command (R78, R85). -/
theorem tickStmt_edge (p : Bool) : (tickStmt p).edge = { EdgeIn.idle with rc5Tick := true, rc5In := p } := by
  cases p <;> rfl

/-- An edge with a tick and no command (R185). -/
theorem clockEdge_tickStmt (p : Bool) (s : State) :
    clockEdge (tickStmt p).edge s =
      .next (publishIf (tickDecoder s.cfg p s.dec).2 ((background s).withDec (tickDecoder s.cfg p s.dec).1)) := by
  have no_command : acceptedCmd (tickStmt p).edge s = none := by simp [acceptedCmd_eq, tickStmt_edge, EdgeIn.idle]
  have hcfg : (background s).cfg = s.cfg := congrArg Build.cfg (background_build s)
  have hedge : clockEdge (tickStmt p).edge s = runPort (tickEvent (tickStmt p).edge) (background s) := by
    rw [clockEdge, no_command, tickStmt_edge]
    rfl
  rw [hedge, runPort_tick, hcfg, background_dec, tickStmt_edge]
  rfl

/-- The mailbox after a number of publishes: the last one stays (R115). -/
def publishAll (m : Mailbox) (ws : List RcWord) : Mailbox := ws.foldl (fun _ w => { valid := true, word := w }) m

theorem publishIf_mbox_eq_publishAll (pub : Option RcWord) (s : State) :
    (publishIf pub s).mbox = publishAll s.mbox pub.toList := by
  cases pub <;> rfl

/-- The inputs of one tick at each of the given logical levels. -/
def tickEdges (c : Config) (vs : List Bool) : List EdgeIn := vs.map fun v => (tickStmt (pinOf c v)).edge

/-- Steps whose inputs are ticks alone run the decoder, leave what it publishes in the mailbox, and keep the pixels. -/
theorem steps_tickEdges {vs : List Bool} {s : State} (hpins : s.pins = tickEdges s.cfg vs) :
    ∃ t, steps vs.length s = .next t ∧ t.dec = (decodeTicks s.cfg vs s.dec).1 ∧
      t.mbox = publishAll s.mbox (decodeTicks s.cfg vs s.dec).2 ∧ t.pbMem = s.pbMem := by
  induction vs generalizing s with
  | nil => exact ⟨s, rfl, rfl, rfl, rfl⟩
  | cons v vs ih =>
    have hstep := (step_cons hpins).trans (clockEdge_tickStmt (pinOf s.cfg v) _)
    obtain ⟨u, hu⟩ : ∃ u, u = publishIf (tickDecoder s.cfg (pinOf s.cfg v) s.dec).2
      ((background (s.withPins (tickEdges s.cfg vs))).withDec (tickDecoder s.cfg (pinOf s.cfg v) s.dec).1) := ⟨_, rfl⟩
    have hcfg : u.cfg = s.cfg := by simp [hu, State.cfg]
    obtain ⟨t, hrun, hdec, hmbox, hmem⟩ := ih (s := u) (by rw [hcfg]; simp [hu])
    refine ⟨t, ?_, ?_, ?_, ?_⟩
    · rw [List.length_cons, steps_succ, hstep]
      exact hu ▸ hrun
    · rw [hdec, hcfg]
      simp [hu, decodeTicks]
    · rw [hmbox, hcfg]
      simp [hu, decodeTicks, publishAll, publishIf_mbox_eq_publishAll]
    · rw [hmem]
      simp [hu]

/-! ### An idle line -/

/-- An empty accumulator publishes nothing. -/
theorem tickDecoder_idle_publishes_nothing {c : Config} {p : Bool} {d : Decoder} (hacc : d.acc = 0) :
    (tickDecoder c p d).2 = none := by
  cases hpub : (tickDecoder c p d).2 with
  | none => rfl
  | some w =>
    obtain ⟨-, valid, -⟩ := tickDecoder_publishes hpub
    rw [hacc] at valid
    cases valid

/-- An idle decoder on a quiet line only counts, past the timeout too. -/
theorem tickDecoder_idle_quiet {c : Config} {p : Bool} {d : Decoder} (hlvl : inputStage c p = d.lvl) (hacc : d.acc = 0) :
    tickDecoder c p d = ({ d with cnt := satInc d.cnt }, none) := by
  rw [tickDecoder_quiet hlvl, hacc, timeoutStage_idle]

/-- On a quiet line it stays idle, publishes nothing and counts the ticks, up to saturation (R103). -/
theorem decodeTicks_idle {c : Config} {v : Bool} {d : Decoder} (n : Nat) (hacc : d.acc = 0) (hlvl : d.lvl = v) :
    ∃ d', decodeTicks c (List.replicate n v) d = (d', []) ∧ d'.acc = 0 ∧ d'.lvl = v ∧
      min (d.cnt.toNat + n) 255 ≤ d'.cnt.toNat := by
  induction n generalizing d with
  | zero => exact ⟨d, rfl, hacc, hlvl, min_le_left _ _⟩
  | succ n ih =>
    have htick := tickDecoder_idle_quiet ((inputStage_pinOf c v).trans hlvl.symm) hacc
    obtain ⟨d', hrest, hacc', hlvl', hcnt⟩ := ih (d := { d with cnt := satInc d.cnt }) hacc hlvl
    rw [satInc_toNat] at hcnt
    refine ⟨d', ?_, hacc', hlvl', by omega⟩
    rw [List.replicate_succ, decodeTicks_cons htick, hrest]
    rfl

/-! ### The host's statements as ticks (R81, R85) -/

/-- The logical levels of `RC5FRAME w, h ; RC5IDLE n`, tick by tick. -/
def hostLevels (w : RcWord) (h n : Nat) : List Bool := (frameLevels w).flatMap (List.replicate h) ++ List.replicate n false

theorem hostFrame_edges (c : Config) (w : RcWord) (h n : Nat) :
    (rc5Frame c w h ++ rc5Idle c n).map Stmt.edge = tickEdges c (hostLevels w h n) := by
  simp [rc5Frame, rc5Idle, ticks, tickEdges, hostLevels, List.map_flatMap]

theorem length_halfBits (w : RcWord) (k : Nat) : (halfBits w k).length = 2 * k := by
  induction k with
  | zero => rfl
  | succ k ih => simp only [halfBits, List.length_cons, ih]; omega

theorem length_hostLevels (w : RcWord) (h n : Nat) : (hostLevels w h n).length = 28 * h + n := by
  have half_bits : (frameLevels w).length = 28 := length_halfBits w 14
  simp only [hostLevels, List.length_append, List.length_flatMap, List.length_replicate, List.map_const', List.sum_replicate,
    half_bits, smul_eq_mul]

/-- The ticks from the mid-bit transition of bit `k + 1` to the next edge, when each half-bit lasts `h` ticks. -/
def nominalInterval (w : RcWord) (h k : Nat) : Nat := if w.getLsbD k = w.getLsbD (k + 1) then h else 2 * h

/-- From the second half of bit `k` on, the half-bits of R81 are the intervals of R120. -/
theorem flatMap_halfBits (w : RcWord) (h k : Nat) :
    List.replicate h (w.getLsbD k) ++ (halfBits w k).flatMap (List.replicate h) =
      frameBody w (nominalInterval w h) (fun _ => h) k ++ List.replicate h (w.getLsbD 0) := by
  induction k with
  | zero => simp [halfBits, frameBody]
  | succ k ih =>
    have hinterval : List.replicate h (w.getLsbD (k + 1)) ++ List.replicate h (!w.getLsbD k) =
        bitInterval w (nominalInterval w h) (fun _ => h) k := by
      by_cases heq : w.getLsbD k = w.getLsbD (k + 1)
      · simp only [bitInterval, nominalInterval, heq, if_true]
      · have hne : (!w.getLsbD k) = w.getLsbD (k + 1) := Bool.not_eq_eq_eq_not.2 (Bool.eq_not.2 heq)
        simp only [bitInterval, nominalInterval, if_neg heq, hne, List.replicate_append_replicate, Nat.two_mul]
    rw [frameBody_succ, ← hinterval, List.append_assoc, ← ih, halfBits]
    simp

/-- After bit 0 comes the idle level; its second half, if it is at level 0, is part of that stretch. -/
theorem replicate_eq_frameEnd (w : RcWord) (h q : Nat) :
    List.replicate h (w.getLsbD 0) ++ List.replicate (q + 1) false =
      frameEnd w h q ++ List.replicate ((if w.getLsbD 0 then 0 else h) + 1) false := by
  cases h0 : w.getLsbD 0 with
  | false =>
    simp only [frameEnd, h0, Bool.false_eq_true, if_false, List.nil_append, List.replicate_append_replicate]
    congr 1
    omega
  | true => simp only [frameEnd, h0, if_true, List.append_assoc, List.replicate_append_replicate, Nat.zero_add]

/-- The host's levels are an idle half-bit, a frame of R120, and the tick after it with the rest of the idle line. -/
theorem hostLevels_eq {w : RcWord} (h13 : w.getLsbD 13 = true) (h q : Nat) :
    hostLevels w h (q + 1) =
      List.replicate h false ++ (frameSamples w (nominalInterval w h) (fun _ => h) h q ++
        List.replicate ((if w.getLsbD 0 then 0 else h) + 1) false) := by
  have hbits := flatMap_halfBits w h 13
  rw [h13] at hbits
  have hlevels : frameLevels w = false :: true :: halfBits w 13 := by rw [frameLevels, halfBits, h13, Bool.not_true]
  rw [frameSamples_eq, List.append_assoc, ← replicate_eq_frameEnd, ← List.append_assoc (frameBody _ _ _ _), ← hbits]
  simp only [hostLevels, hlevels, List.flatMap_cons, List.append_assoc]

/-- Every H with `PULSE_MIN <= H <= PULSE_MID < 2 H <= PULSE_MAX` fits the bands (R120 (b)). -/
theorem intervalsFit_nominal {c : Config} {h : Nat} (w : RcWord) (hmin : c.pulseMin ≤ h) (hmid : h ≤ c.pulseMid)
    (hmid2 : c.pulseMid < 2 * h) (hmax : 2 * h ≤ c.pulseMax) :
    intervalsFit c w (nominalInterval w h) (fun _ => h) h := by
  refine ⟨fun k _ => ?_, fun _ => ⟨hmin, hmid⟩⟩
  unfold nominalInterval
  split
  · exact ⟨⟨hmin, hmid⟩, hmin, hmid⟩
  · exact ⟨hmid2, hmax⟩

/-- The host's frame publishes the word, once, at the timeout after it, and leaves the decoder idle (R120). -/
theorem decodeTicks_hostLevels {b : Build} {w : RcWord} {h : Nat} {d : Decoder} (h13 : w.getLsbD 13 = true)
    (h12 : w.getLsbD 12 = true) (hfit : intervalsFit b.cfg w (nominalInterval w h) (fun _ => h) h)
    (hmin : b.cfg.pulseMin ≤ h) (hacc : d.acc = 0) (hlvl : d.lvl = false) :
    ∃ d', decodeTicks b.cfg (hostLevels w h (b.cfg.pulseMax + 2)) d = (d', [w]) ∧ d'.acc = 0 := by
  obtain ⟨-, hmin_mid, hmid_max, hcnt⟩ := b.thresholds
  obtain ⟨d₁, hquiet, hacc₁, hlvl₁, hcount⟩ := decodeTicks_idle (c := b.cfg) h hacc hlvl
  have hdecoded := frameIsDecoded b w _ _ h d₁ h13 hfit hlvl₁ (.inl ⟨hacc₁, by omega⟩)
  obtain ⟨d₂, pubs, hframe⟩ : ∃ d₂ pubs, decodeTicks b.cfg
    (frameSamples w (nominalInterval w h) (fun _ => h) h (b.cfg.pulseMax + 1)) d₁ = (d₂, pubs) := ⟨_, _, rfl⟩
  rw [hframe, tickDecoder_idle_publishes_nothing hacc₁, if_pos h12] at hdecoded
  obtain ⟨rfl, htimeout⟩ := hdecoded
  have hlvl₂ := tickDecoder_lvl b.cfg (pinOf b.cfg false) d₂
  rw [htimeout, inputStage_pinOf] at hlvl₂
  obtain ⟨d₃, hrest, hacc₃, -, -⟩ := decodeTicks_idle (c := b.cfg) (if w.getLsbD 0 then 0 else h) rfl hlvl₂
  refine ⟨d₃, ?_, hacc₃⟩
  rw [hostLevels_eq h13, decodeTicks_append hquiet, decodeTicks_append hframe, List.replicate_succ,
    decodeTicks_cons htimeout, hrest]
  rfl

/-- Settles O45: the listed inputs are the ticks of the host's frame, and such a run brings what the decoder publishes into
the mailbox. -/
theorem frameReachesTheMailbox : Obligations.FrameReachesTheMailbox := by
  intro w h s hstart hacc hlvl hmin hmid hmid2 hmax hpins
  have start_bit (i : Nat) (hi : i < 2) : w.getLsbD (12 + i) = (0b11#2).getLsbD i := by
    rw [← hstart, BitVec.getLsbD_extractLsb']
    simp [hi]
  obtain ⟨d', hdecode, hidle⟩ := decodeTicks_hostLevels (start_bit 1 (by omega)) (start_bit 0 (by omega))
    (intervalsFit_nominal w hmin hmid hmid2 hmax) hmin hacc hlvl
  rw [hostFrame_edges] at hpins
  obtain ⟨t, hrun, hdec, hmbox, hmem⟩ := steps_tickEdges hpins
  rw [length_hostLevels] at hrun
  rw [hdecode] at hdec hmbox
  exact ⟨t, hrun, hmbox, hdec ▸ hidle, hmem⟩

end Sys2Proof.Machine
end

section
/-! TAKE and the mailbox (spec/40_rc5_decoder.md section 3): the response, the merge of a TAKE with a publish at one edge
(R119), and a word's delivery over a run of edges (R124). -/

namespace Sys2Proof.Machine

/-! ### The response -/

/-- A waiting word answers `{1, reduce(w)}`, an empty mailbox 0x00 (R79, R117). -/
theorem toNat_takeData (c : Config) (m : Mailbox) :
    (takeData c m).toNat = if m.valid then 128 + (reduce c m.word).toNat else 0 := by
  unfold takeData
  split
  · rw [BitVec.toNat_cast, toNat_append_eq_add]
    rfl
  · rfl

/-- The reduced command by the word's value: its low six bits, and 64 unless the source bit is set (R82). -/
theorem toNat_reduce_mod (c : Config) (w : RcWord) :
    (reduce c w).toNat = w.toNat % 64 + if w.getLsbD c.cmd6SrcBit then 0 else 64 := by
  have low : (w &&& 0x3F).toNat = w.toNat % 2 ^ 6 := Nat.and_two_pow_sub_one_eq_mod w.toNat 6
  rw [toNat_reduce, low]
  cases w.getLsbD c.cmd6SrcBit <;> rfl

/-- Settles O20: the response is `toNat_takeData`, and the rest of TAKE is what its two setters do. -/
theorem takeRespondsAndEmptiesMailbox : Obligations.TakeRespondsAndEmptiesMailbox := by
  intro s
  refine ⟨_, rfl, rfl, ?_, rfl, rfl, rfl⟩
  exact (toNat_takeData s.cfg s.mbox).trans (by rw [toNat_reduce_mod, Nat.add_assoc])

/-! ### The mailbox and the response after an edge -/

/-- Of the commands only TAKE touches the mailbox (R117). -/
theorem exec_mbox {i : Instr} {s t : State} (h : exec i s = .next t) (hi : ∀ p, i ≠ .tick p) :
    t.mbox = if i = .take then { s.mbox with valid := false } else s.mbox := by
  obtain ⟨rfl, rfl⟩ | ⟨rfl, rfl⟩ | ⟨x, y, rgb, rfl, ⟨-, rfl⟩ | ⟨j, -, rfl⟩⟩ | ⟨rgb, rfl, rfl⟩ | ⟨rfl, -, rfl⟩ | ⟨hr, rfl⟩ |
    ⟨p, rfl, -⟩ := exec_next_cases h
  case inr.inr.inr.inr.inr.inl =>
    have not_take : i ≠ .take := by
      rintro rfl
      cases hr
    simp [flagReserved, not_take]
  case inr.inr.inr.inr.inr.inr => exact absurd rfl (hi p)
  all_goals simp

/-- The command port empties the mailbox by a TAKE, and else leaves it. -/
theorem runPort_acceptedCmd_mbox {e : EdgeIn} {s u v : State} (h : runPort (acceptedCmd e s) u = .next v) :
    v.mbox = if acceptedCmd e s = some .take then { u.mbox with valid := false } else u.mbox := by
  obtain ⟨hnone, rfl⟩ | ⟨i, hi, hx⟩ := runPort_next_cases h
  · simp [hnone]
  · have command := hi
    rw [acceptedCmd_eq, Option.ite_none_right_eq_some, Option.some.injEq] at command
    obtain ⟨-, rfl⟩ := command
    simp only [hi, exec_mbox hx (decodeCmd_ne_tick e.cmd), Option.some.injEq]

/-- No edge changes the configuration (R37). -/
theorem clockEdge_build {e : EdgeIn} {s t : State} (h : clockEdge e s = .next t) : t.build = s.build := by
  obtain ⟨-, rfl⟩ | ⟨hr, -⟩ := clockEdge_next_cases h
  · rfl
  · obtain ⟨u, hcmd, rfl⟩ := clockEdge_next_of_no_reset hr h
    obtain ⟨hbuild, -⟩ := runPort_acceptedCmd_frame hcmd
    split <;> simp [hbuild]

section
variable {e : EdgeIn} {s t : State}

/-- The mailbox after an edge without reset: a publish is merged last (R119). -/
theorem clockEdge_mbox (hr : e.rst = false) (h : clockEdge e s = .next t) :
    t.mbox = publishAll (if acceptedCmd e s = some .take then { s.mbox with valid := false } else s.mbox)
      (publishedAt e s).toList := by
  obtain ⟨u, hcmd, rfl⟩ := clockEdge_next_of_no_reset hr h
  obtain ⟨hbuild, hdec⟩ := runPort_acceptedCmd_frame hcmd
  have hmbox := runPort_acceptedCmd_mbox hcmd
  rw [background_mbox] at hmbox
  rw [← hmbox]
  cases htick : e.rc5Tick with
  | false =>
    rw [publishedAt_no_tick htick]
    rfl
  | true =>
    have hcfg : u.cfg = s.cfg := congrArg Build.cfg (hbuild.trans (background_build s))
    rw [publishedAt_tick hr htick, if_pos rfl, publishIf_mbox_eq_publishAll, State.withDec_mbox, hcfg, hdec, background_dec]

theorem clockEdge_mbox_of_publish {w : RcWord} (hpub : publishedAt e s = some w) (h : clockEdge e s = .next t) :
    t.mbox = { valid := true, word := w } := by
  have hr : e.rst = false := by
    by_contra hr
    rw [publishedAt_reset (Bool.not_eq_false _ ▸ hr)] at hpub
    cases hpub
  rw [clockEdge_mbox hr h, hpub]
  rfl

theorem clockEdge_mbox_of_take (hr : e.rst = false) (hpub : publishedAt e s = none) (htake : acceptedCmd e s = some .take)
    (h : clockEdge e s = .next t) : t.mbox = { s.mbox with valid := false } := by
  rw [clockEdge_mbox hr h, hpub]
  exact if_pos htake

theorem clockEdge_mbox_of_neither (hr : e.rst = false) (hpub : publishedAt e s = none)
    (htake : acceptedCmd e s ≠ some .take) (h : clockEdge e s = .next t) : t.mbox = s.mbox := by
  rw [clockEdge_mbox hr h, hpub]
  exact if_neg htake

/-- With no publish an empty mailbox stays empty, at a reset edge too. -/
theorem clockEdge_mbox_empty (hpub : publishedAt e s = none) (hempty : s.mbox.valid = false) (h : clockEdge e s = .next t) :
    t.mbox.valid = false := by
  obtain ⟨-, rfl⟩ | ⟨hr, -⟩ := clockEdge_next_cases h
  · rfl
  · by_cases htake : acceptedCmd e s = some .take
    · rw [clockEdge_mbox_of_take hr hpub htake h]
    · rw [clockEdge_mbox_of_neither hr hpub htake h, hempty]

/-- An accepted TAKE answers from the mailbox before the edge (R117, R119). -/
theorem clockEdge_rsp_of_take (hr : e.rst = false) (htake : acceptedCmd e s = some .take) (h : clockEdge e s = .next t) :
    t.rsp = { valid := true, data := takeData s.cfg s.mbox } := by
  obtain ⟨u, hcmd, rfl⟩ := clockEdge_next_of_no_reset hr h
  rw [htake] at hcmd
  cases hcmd
  split <;> simp [State.cfg]

end

/-! ### The obligations -/

/-- Settles O41: the three cases of the mailbox after an edge, and the TAKE's response. -/
theorem takeAndPublishMerge : Obligations.TakeAndPublishMerge := by
  intro e s t hr h
  refine ⟨fun htake => ?_, fun w htick hpub => ?_, fun hno => ?_⟩
  · rw [clockEdge_rsp_of_take hr htake h]
    exact toNat_takeData s.cfg s.mbox
  · exact clockEdge_mbox_of_publish ((publishedAt_tick hr htick s).trans hpub) h
  · have hpub : publishedAt e s = none := by
      cases htick : e.rc5Tick with
      | false => exact publishedAt_no_tick htick s
      | true => exact (publishedAt_tick hr htick s).trans (hno.resolve_left (by simp [htick]))
    by_cases htake : acceptedCmd e s = some .take
    · simp [clockEdge_mbox_of_take hr hpub htake h, htake]
    · simp [clockEdge_mbox_of_neither hr hpub htake h, htake]

/-- Settles O21: until a TAKE or a publish the mailbox keeps the word, and after a TAKE it stays empty until a publish; each
is an invariant of the run. -/
theorem takeDeliversAWordOnce : Obligations.TakeDeliversAWordOnce := by
  constructor
  · intro e f es w s t u v hpub hst hrun htu hr htake huv
    have hword : t.mbox = { valid := true, word := w } := clockEdge_mbox_of_publish hpub hst
    obtain ⟨hmbox, hbuild⟩ : u.mbox = { valid := true, word := w } ∧ u.build = s.build :=
      edges_induct (I := fun s' => s'.mbox = { valid := true, word := w } ∧ s'.build = s.build)
        (fun e s₁ s₂ ⟨hmbox, hbuild⟩ ⟨hr, hno, hntake⟩ h =>
          ⟨(clockEdge_mbox_of_neither hr hno hntake h).trans hmbox, (clockEdge_build h).trans hbuild⟩)
        es t u ⟨hword, clockEdge_build hst⟩ hrun htu
    have hrsp := clockEdge_rsp_of_take hr htake huv
    refine ⟨hword, by rw [hrsp], ?_, fun hno => by rw [clockEdge_mbox_of_take hr hno htake huv]⟩
    rw [hrsp, toNat_takeData, hmbox, if_pos rfl, State.cfg, hbuild]
  · intro e f es s t u v hr htake hst hpub hrun htu hfr hftake huv
    have hempty : u.mbox.valid = false :=
      edges_induct (I := fun s' => s'.mbox.valid = false) (fun e s₁ s₂ hempty hno h => clockEdge_mbox_empty hno hempty h)
        es t u (by rw [clockEdge_mbox_of_take hr hpub htake hst]) hrun htu
    rw [clockEdge_rsp_of_take hfr hftake huv]
    exact ⟨rfl, takeData_none hempty⟩

end Sys2Proof.Machine
end

section
/-! FLUSH and the lines (spec/41_ws2812_transmitter.md): the size of a transmission (R151) and the default timing (R148),
what FLUSH does (R141) and what alone can stop the model (R150), and the level of each line (R143 to R145). -/

namespace Sys2Proof

namespace Config

/-! ### The size of a transmission (R9, R10, R151) -/

/-- N is even (W1), so no pixel is left over between the halves. -/
theorem nPix_eq {c : Config} (h : c.W1) : c.nPix = 2 * c.halfPix := by
  obtain ⟨even, -, -⟩ := h
  exact (Nat.mul_div_cancel' ((Nat.dvd_of_mod_eq_zero even).mul_right c.n)).symm

theorem bufBytes_eq {c : Config} (h : c.W1) : c.bufBytes = 2 * c.halfBytes := by
  rw [bufBytes, halfBytes, nPix_eq h]
  omega

/-- R146 counts the cycles of a transmission by halves. -/
theorem flushCycles_eq {c : Config} (h : c.W1) : c.flushCycles = 2 * (c.bitsHalf * c.tBit) := by
  rw [flushCycles, bitsHalf, halfBytes, nPix_eq h]
  ring

/-- The default symbol is `f * 500 ns` in whole cycles, rounded to the nearest and a tie up (R148). -/
theorem defaultSym_nearest (f : Nat) :
    500 * f < defaultSym f * 10 ^ 9 + 5 * 10 ^ 8 ∧ defaultSym f * 10 ^ 9 ≤ 500 * f + 5 * 10 ^ 8 := by
  unfold defaultSym
  omega

end Config

/-- Settles O52: N is even, and no symbol is empty. -/
theorem flushCyclesCoverBothHalves : Obligations.FlushCyclesCoverBothHalves := by
  intro b
  obtain ⟨hW1, ⟨-, hB, hC⟩, -⟩ := b.admitted
  refine ⟨?_, Config.bufBytes_eq hW1, Nat.lt_add_of_pos_right hB, Nat.lt_add_of_pos_right hC⟩
  rw [Config.flushCycles_eq hW1, Config.bitsHalf]
  ring

/-- Settles O7: rounding to the nearest for every clock, and the checks evaluated at the six clocks of R148's table. -/
theorem defaultTimingIsAdmittedOrRefused : Obligations.DefaultTimingIsAdmittedOrRefused :=
  ⟨Config.defaultSym_nearest, by decide, by decide⟩

namespace Machine

/-! ### FLUSH (R141, R150) -/

theorem exec_flush_of_written {s : State} (h : ∀ a < s.cfg.bufBytes, a ∈ s.pbW) :
    exec .flush s = .next (s.withTx startTx) := by
  simp only [exec, execFlush, firstUnwritten_none.2 h]

theorem exec_flush_of_unwritten {s : State} {a : Nat} (h : firstUnwritten s.cfg s.pbW = some a) :
    exec .flush s = .fault (.unwrittenPixel a) := by
  simp only [exec, execFlush, h]

/-- Only one byte is the lowest unwritten one, so the search finds that one. -/
theorem firstUnwritten_eq_some {c : Config} {w : Marks} {a : Nat} (ha : a < c.bufBytes) (hunwritten : a ∉ w)
    (hlower : ∀ b < a, b ∈ w) : firstUnwritten c w = some a := by
  cases hfind : firstUnwritten c w with
  | none => exact absurd (firstUnwritten_none.1 hfind a ha) hunwritten
  | some b =>
    obtain ⟨-, hb, hbelow⟩ := firstUnwritten_some hfind
    obtain hlt | rfl | hgt := Nat.lt_trichotomy a b
    · exact absurd (hbelow a hlt) hunwritten
    · rfl
    · exact absurd (hlower b hgt) hb

/-- Settles O27: a wholly written buffer has no first unwritten byte. -/
theorem flushStartsTheTransmission : Obligations.FlushStartsTheTransmission :=
  fun _ hwritten => exec_flush_of_written hwritten

/-- Settles O28: the byte of the statement is the one the search finds. -/
theorem flushOfUnwrittenByteFaults : Obligations.FlushOfUnwrittenByteFaults :=
  fun _ _ ha hunwritten hlower => exec_flush_of_unwritten (firstUnwritten_eq_some ha hunwritten hlower)

/-! ### What stops (R150, R203) -/

/-- Every operation answers a next state, except a FLUSH of a buffer with an unwritten byte. -/
theorem exec_next_or_unwritten (i : Instr) (s : State) :
    (∃ t, exec i s = .next t) ∨
      (i = .flush ∧ ∃ a, firstUnwritten s.cfg s.pbW = some a ∧ exec i s = .fault (.unwrittenPixel a)) := by
  cases i with
  | flush =>
    cases hfind : firstUnwritten s.cfg s.pbW with
    | none => exact .inl ⟨_, exec_flush_of_written (firstUnwritten_none.1 hfind)⟩
    | some a => exact .inr ⟨rfl, a, rfl, exec_flush_of_unwritten hfind⟩
  | set x y rgb =>
    left
    cases hslot : slotOf s.cfg x y with
    | none => exact ⟨s, by simp only [exec, execSet, hslot]⟩
    | some j => exact ⟨storeSlot j rgb s, by simp only [exec, execSet, hslot]⟩
  | _ => exact .inl ⟨_, rfl⟩

/-- An edge without reset goes on from the command port's operation: the tick changes the decoder and the mailbox alone. -/
theorem clockEdge_of_runPort {e : EdgeIn} {s u : State} (hr : e.rst = false)
    (hcmd : runPort (acceptedCmd e s) (background s) = .next u) :
    ∃ t, clockEdge e s = .next t ∧ t.build = u.build ∧ t.tx = u.tx ∧ t.pbMem = u.pbMem ∧ t.clrCnt = u.clrCnt ∧
      t.pins = u.pins := by
  refine ⟨_, by rw [clockEdge, hr, hcmd]; exact runPort_tick e u, ?_⟩
  split <;> simp

/-- Every edge answers a next state, except one without reset that accepts a FLUSH of a buffer with an unwritten byte. -/
theorem clockEdge_next_or_unwritten (e : EdgeIn) (s : State) :
    (∃ t, clockEdge e s = .next t) ∨
      (e.rst = false ∧ acceptedCmd e s = some .flush ∧
        ∃ a, firstUnwritten s.cfg s.pbW = some a ∧ clockEdge e s = .fault (.unwrittenPixel a)) := by
  cases hr : e.rst with
  | true => exact .inl ⟨clockReset s, by rw [clockEdge, hr]; rfl⟩
  | false =>
    have completes {u : State} (hcmd : runPort (acceptedCmd e s) (background s) = .next u) :
        ∃ t, clockEdge e s = .next t := by
      obtain ⟨t, hedge, -⟩ := clockEdge_of_runPort hr hcmd
      exact ⟨t, hedge⟩
    cases hcmd : acceptedCmd e s with
    | none => exact .inl (completes (by rw [hcmd]; rfl))
    | some i =>
      obtain ⟨u, hexec⟩ | ⟨rfl, a, hfind, hexec⟩ := exec_next_or_unwritten i (background s)
      · exact .inl (completes (by rw [hcmd]; exact hexec))
      · refine .inr ⟨rfl, rfl, a, by simpa [State.cfg] using hfind, ?_⟩
        rw [clockEdge, hr, hcmd, runPort, hexec]
        rfl

/-- Settles O16: a step is an edge from the state whose next inputs are used up, and its fault names the byte found. -/
theorem onlyUnwrittenFlushStops : Obligations.OnlyUnwrittenFlushStops := by
  intro s
  obtain ⟨t, hstep⟩ | ⟨hr, haccepted, a, hfind, hstep⟩ := clockEdge_next_or_unwritten (nextInputs s) (consumeInputs s)
  · exact ⟨fun f hf => (nomatch hstep.symm.trans hf), fun r hrefused => (nomatch hstep.symm.trans hrefused)⟩
  · refine ⟨fun f hf => ?_, fun r hrefused => (nomatch hstep.symm.trans hrefused)⟩
    cases hstep.symm.trans hf
    exact ⟨a, rfl, hr, haccepted, firstUnwritten_some hfind⟩

/-! ### The lines (R143 to R145) -/

theorem wsOut_of_not_selected {s : State} {h : Fin 2} (hne : s.tx.half ≠ h) : wsOut s h = some false :=
  if_neg fun ⟨_, heq⟩ => hne heq

theorem wsOut_of_selected {s : State} {h : Fin 2} (hbusy : s.tx.busy = true) (heq : s.tx.half = h) : wsOut s h = txLevel s :=
  if_pos ⟨hbusy, heq⟩

theorem txLevel_A {s : State} (h : s.tx.sym = .A) : txLevel s = some true := by rw [txLevel, h]

theorem txLevel_B {s : State} (h : s.tx.sym = .B) : txLevel s = dataBit s := by rw [txLevel, h]

theorem txLevel_C {s : State} (h : s.tx.sym = .C) : txLevel s = some false := by rw [txLevel, h]

/-- Settles O49: a line is low unless selected, and the selected line shows the level of its symbol. -/
theorem linesShowTheSelectedSymbol : Obligations.LinesShowTheSelectedSymbol := by
  intro s h
  refine ⟨fun hidle => wsOut_of_not_busy hidle h, wsOut_of_not_selected, fun hbusy heq hsym => ?_, fun hbusy heq hsym => ?_,
    fun v hbusy heq hsym hread => ?_⟩
  · rw [wsOut_of_selected hbusy heq, txLevel_A hsym]
  · rw [wsOut_of_selected hbusy heq, txLevel_C hsym]
  · rw [wsOut_of_selected hbusy heq, txLevel_B hsym, dataBit, sentAddr, heq, hread, Option.map_some]

/-- The byte being sent lies in the buffer: a half and an index inside it. -/
theorem sentAddr_lt {c : Config} (hW1 : c.W1) {t : Transmitter} (hidx : t.idx < c.halfBytes) :
    sentAddr c t < c.bufBytes := by
  rw [sentAddr, Config.bufBytes_eq hW1]
  have half_le : t.half.val * c.halfBytes ≤ 1 * c.halfBytes := Nat.mul_le_mul_right _ (Nat.le_of_lt_succ t.half.isLt)
  omega

/-- While busy the byte being sent is in the buffer, so it is written and has a value. -/
theorem State.Inv.dataBit_isSome {s : State} (h : s.Inv) (hbusy : s.tx.busy = true) : (dataBit s).isSome = true := by
  obtain ⟨hW1, -⟩ := s.build.admitted
  rw [dataBit, Option.isSome_map]
  exact h.marksListed _ (h.busyWritten hbusy _ (sentAddr_lt hW1 h.idxInHalf))

/-- Settles O60: of the symbols only B shows a byte, and under the invariant that byte has a value. -/
theorem linesAlwaysHaveALevel : Obligations.LinesAlwaysHaveALevel := by
  intro s h hinv
  by_cases hselected : s.tx.busy = true ∧ s.tx.half = h
  · obtain ⟨hbusy, heq⟩ := hselected
    rw [wsOut_of_selected hbusy heq]
    cases hsym : s.tx.sym with
    | A => rw [txLevel_A hsym]; rfl
    | B => rw [txLevel_B hsym]; exact hinv.dataBit_isSome hbusy
    | C => rw [txLevel_C hsym]; rfl
  · rw [wsOut, if_neg hselected]
    rfl

end Machine

end Sys2Proof
end
section
/-! One transmission, cycle by cycle (spec/41_ws2812_transmitter.md): the sequencer's position determines how many cycles
have gone by, and each step adds one (R142); so a FLUSH lasts `FLUSH_CYCLES` (R149), and quotients and remainders of the
cycle's number give the position back, which is the closed form (R146). -/

namespace Sys2Proof.Machine

/-! ### The cycles gone by at a position -/

/-- The cycles of a bit before its symbol. -/
def symStart (c : Config) : Sym → Nat
  | .A => 0
  | .B => c.th0
  | .C => c.th1

/-- The cycle within the bit being sent. -/
def bitCycle (c : Config) (t : Transmitter) : Nat := symStart c t.sym + t.cyc

/-- The bit's number within the half, in the order sent: bit 7 of a byte first. -/
def bitIndex (t : Transmitter) : Nat := 8 * t.idx + (7 - t.bit.toNat)

/-- The cycle within the half being sent. -/
def halfCycle (c : Config) (t : Transmitter) : Nat := c.tBit * bitIndex t + bitCycle c t

/-- The cycle within the transmission. -/
def txCycle (c : Config) (t : Transmitter) : Nat := c.bitsHalf * c.tBit * t.half.val + halfCycle c t

/-- The transmitter is busy at a position in range, in cycle `m` of the transmission. -/
structure Sending (c : Config) (m : Nat) (t : Transmitter) : Prop where
  busy : t.busy = true
  idxInHalf : t.idx < c.halfBytes
  cycInSym : t.cyc < symLen c t.sym
  cycle : txCycle c t = m

/-- The transmission is in cycle `m`, or just over. -/
def SentTo (c : Config) (m : Nat) (t : Transmitter) : Prop :=
  Sending c m t ∨ (m = c.flushCycles ∧ t = Transmitter.initial)

section
variable {c : Config} {m : Nat} {t : Transmitter}

theorem symEnd_le_tBit (c : Config) (y : Sym) : symStart c y + symLen c y ≤ c.tBit := by
  cases y
  all_goals
    simp only [symStart, symLen, Config.th0, Config.th1, Config.tBit]
    omega

theorem bitCycle_lt (h : t.cyc < symLen c t.sym) : bitCycle c t < c.tBit :=
  (Nat.add_lt_add_left h _).trans_le (symEnd_le_tBit c t.sym)

theorem bitIndex_lt (h : t.idx < c.halfBytes) : bitIndex t < c.bitsHalf := by
  simp only [bitIndex, Config.bitsHalf]
  omega

theorem halfCycle_lt (hidx : t.idx < c.halfBytes) (hcyc : t.cyc < symLen c t.sym) :
    halfCycle c t < c.bitsHalf * c.tBit := by
  have later_bits : c.tBit * (bitIndex t + 1) ≤ c.tBit * c.bitsHalf := Nat.mul_le_mul_left _ (bitIndex_lt hidx)
  have := bitCycle_lt hcyc
  rw [Nat.mul_succ, Nat.mul_comm _ c.bitsHalf] at later_bits
  unfold halfCycle
  omega

/-- A cycle in range is before the end of the transmission. -/
theorem Sending.lt_flushCycles (hW1 : c.W1) (h : Sending c m t) : m < c.flushCycles := by
  have := halfCycle_lt h.idxInHalf h.cycInSym
  have half_le : c.bitsHalf * c.tBit * t.half.val ≤ c.bitsHalf * c.tBit * 1 :=
    Nat.mul_le_mul_left _ (Nat.le_of_lt_succ t.half.isLt)
  rw [← h.cycle, txCycle, Config.flushCycles_eq hW1]
  omega

/-- The first cycle (R141). -/
theorem sending_startTx (hW1 : c.W1) (hW2 : c.W2) : Sending c 0 startTx where
  busy := rfl
  idxInHalf := halfBytes_pos hW1
  cycInSym := symLen_pos hW2 .A
  cycle := by simp [txCycle, halfCycle, bitIndex, bitCycle, symStart, startTx]

/-! ### One step of the sequencer is one cycle (R142) -/

/-- The last cycle of a symbol is followed by the end of the symbol. -/
theorem txCycle_succ_of_symEnd (hlast : t.cyc + 1 = symLen c t.sym) :
    txCycle c t + 1 =
      c.bitsHalf * c.tBit * t.half.val + (c.tBit * bitIndex t + (symStart c t.sym + symLen c t.sym)) := by
  rw [← hlast]
  rfl

/-- The last cycle of symbol C is followed by the end of the bit. -/
theorem txCycle_succ_of_bitEnd (hsym : t.sym = .C) (hlast : t.cyc + 1 = symLen c t.sym) :
    txCycle c t + 1 = c.bitsHalf * c.tBit * t.half.val + c.tBit * (bitIndex t + 1) := by
  rw [txCycle_succ_of_symEnd hlast, hsym]
  rfl

/-- At the first cycle of a bit only whole bits have gone by. -/
theorem txCycle_of_bitStart (hsym : t.sym = .A) (hcyc : t.cyc = 0) :
    txCycle c t = c.bitsHalf * c.tBit * t.half.val + c.tBit * bitIndex t := by
  rw [txCycle, halfCycle, bitCycle, hsym, hcyc]
  rfl

/-- The last bit of a half is bit 0 of its last byte. -/
theorem bitIndex_succ_of_last (hbit : t.bit = 0) (hidx : t.idx < c.halfBytes) (hlast : ¬t.idx + 1 < c.halfBytes) :
    bitIndex t + 1 = c.bitsHalf := by
  have bit_zero : t.bit.toNat = 0 := by rw [hbit]; rfl
  simp only [bitIndex, bit_zero, Config.bitsHalf]
  omega

/-- A step of the sequencer goes to the position of the next cycle, or after the last one to the reset position. -/
theorem Sending.advance (hW1 : c.W1) (hW2 : c.W2) (h : Sending c m t) : SentTo c (m + 1) (advance c t) := by
  obtain ⟨hbusy, hidx, hcyc, rfl⟩ := h
  have goes_on {u : Transmitter} (hadv : Machine.advance c t = u) (hsends : u.busy = t.busy)
      (hnext : txCycle c u = txCycle c t + 1) : SentTo c (txCycle c t + 1) (Machine.advance c t) := by
    subst hadv
    exact .inl ⟨hsends.trans hbusy, advance_idx_lt hW1 hidx, advance_cyc_lt hW2 t, hnext⟩
  by_cases hinside : t.cyc + 1 < symLen c t.sym
  · exact goes_on (advance_cyc hinside) rfl rfl
  have hlast : t.cyc + 1 = symLen c t.sym := by omega
  obtain ⟨hnot_last, -⟩ | ⟨hsym, hadv⟩ | ⟨hsym, hadv⟩ | ⟨hsym, hbit, hadv⟩ | ⟨hsym, hbit, -, hadv⟩ |
    ⟨hsym, hbit, hend, hhalf, hadv⟩ | ⟨hsym, hbit, hend, hhalf, hadv⟩ := advance_cases c t
  · exact absurd hnot_last hinside
  · refine goes_on hadv rfl ?_
    rw [txCycle_succ_of_symEnd hlast, hsym, symStart, Nat.zero_add]
    rfl
  · refine goes_on hadv rfl ?_
    rw [txCycle_succ_of_symEnd hlast, hsym]
    rfl
  · refine goes_on hadv rfl ?_
    have next_bit : 7 - (t.bit - 1).toNat = 7 - t.bit.toNat + 1 := by bv_omega
    rw [txCycle_of_bitStart rfl rfl, txCycle_succ_of_bitEnd hsym hlast, bitIndex, next_bit]
    rfl
  · refine goes_on hadv rfl ?_
    have bit_zero : t.bit.toNat = 0 := by rw [hbit]; rfl
    have next_byte : 8 * (t.idx + 1) + 0 = bitIndex t + 1 := by
      rw [bitIndex, bit_zero]
      omega
    rw [txCycle_of_bitStart rfl rfl, txCycle_succ_of_bitEnd hsym hlast, ← next_byte]
    rfl
  · refine goes_on hadv rfl ?_
    rw [txCycle_of_bitStart rfl rfl, txCycle_succ_of_bitEnd hsym hlast, bitIndex_succ_of_last hbit hidx hend, hhalf]
    simp [bitIndex, Nat.mul_comm]
  · refine .inr ⟨?_, hadv⟩
    have second_half : t.half.val = 1 := by omega
    rw [txCycle_succ_of_bitEnd hsym hlast, bitIndex_succ_of_last hbit hidx hend, second_half, Config.flushCycles_eq hW1]
    ring

/-! ### The position from the cycle's number (R146) -/

theorem bitIndex_div_eight (t : Transmitter) : bitIndex t / 8 = t.idx := by
  unfold bitIndex
  omega

theorem seven_sub_bitIndex_mod_eight (t : Transmitter) : 7 - bitIndex t % 8 = t.bit.toNat := by
  have := t.bit.isLt
  unfold bitIndex
  omega

theorem halfCycle_div_tBit (h : t.cyc < symLen c t.sym) : halfCycle c t / c.tBit = bitIndex t := by
  have := bitCycle_lt h
  rw [halfCycle, Nat.mul_add_div (by omega), Nat.div_eq_of_lt this, Nat.add_zero]

theorem halfCycle_mod_tBit (h : t.cyc < symLen c t.sym) : halfCycle c t % c.tBit = bitCycle c t := by
  rw [halfCycle, Nat.mul_add_mod, Nat.mod_eq_of_lt (bitCycle_lt h)]

theorem halfCycle_div_byte (h : t.cyc < symLen c t.sym) : halfCycle c t / (8 * c.tBit) = t.idx := by
  rw [Nat.mul_comm, ← Nat.div_div_eq_div_mul, halfCycle_div_tBit h, bitIndex_div_eight]

theorem Sending.div_half (h : Sending c m t) : m / (c.bitsHalf * c.tBit) = t.half.val := by
  have := halfCycle_lt h.idxInHalf h.cycInSym
  rw [← h.cycle, txCycle, Nat.mul_add_div (by omega), Nat.div_eq_of_lt this, Nat.add_zero]

theorem Sending.mod_half (h : Sending c m t) : m % (c.bitsHalf * c.tBit) = halfCycle c t := by
  rw [← h.cycle, txCycle, Nat.mul_add_mod, Nat.mod_eq_of_lt (halfCycle_lt h.idxInHalf h.cycInSym)]

end

/-- In cycle `m` of a transmission each line shows the closed form: quotients and remainders give the half, the byte and
the bit, and the thresholds `TH0` and `TH1` the symbol. -/
theorem Sending.wsOut_eq_waveform {s : State} {m : Nat} (h : Sending s.cfg m s.tx) (line : Fin 2) :
    wsOut s line = waveform s.cfg s.pbMem m line := by
  have hlt := h.lt_flushCycles s.build.admitted.1
  by_cases hsel : s.tx.half = line
  · rw [wsOut_of_selected h.busy hsel, waveform, if_pos ⟨hlt, by rw [h.div_half, hsel]⟩]
    have hcyc := h.cycInSym
    simp only [h.mod_half, halfCycle_div_byte hcyc, halfCycle_div_tBit hcyc, halfCycle_mod_tBit hcyc,
      seven_sub_bitIndex_mod_eight, bitCycle]
    cases hsym : s.tx.sym with
    | A =>
      have before_th0 : symStart s.cfg .A + s.tx.cyc < s.cfg.th0 := by
        simpa [hsym, symStart, symLen, Config.th0] using hcyc
      rw [txLevel_A hsym, if_pos before_th0]
    | B =>
      have from_th0 : ¬symStart s.cfg .B + s.tx.cyc < s.cfg.th0 := Nat.not_lt.2 (Nat.le_add_right _ _)
      have before_th1 : symStart s.cfg .B + s.tx.cyc < s.cfg.th1 := by
        simpa [hsym, symStart, symLen, Config.th0, Config.th1] using hcyc
      rw [txLevel_B hsym, if_neg from_th0, if_pos before_th1, dataBit, sentAddr, hsel]
    | C =>
      have from_th1 : s.cfg.th1 ≤ symStart s.cfg .C + s.tx.cyc := Nat.le_add_right _ _
      have th0_le : s.cfg.th0 ≤ s.cfg.th1 := Nat.le_add_right _ _
      rw [txLevel_C hsym, if_neg (by omega), if_neg (by omega)]
  · rw [wsOut_of_not_selected hsel, waveform, if_neg]
    rintro ⟨-, heq⟩
    exact hsel (Fin.ext (h.div_half.symm.trans heq))

/-! ### The run of a transmission -/

/-- The state `t` is in cycle `m` of a transmission of the buffer of `s`, or just after its end, and no CLEAR holds the
port. -/
structure Transmits (s : State) (m : Nat) (t : State) : Prop where
  build : t.build = s.build
  mem : t.pbMem = s.pbMem
  noStall : t.clrCnt = 0
  sentTo : SentTo s.cfg m t.tx

/-- The next edge and the ones after it, of a number of edges without reset. -/
theorem State.noReset_succ {s : State} {k : Nat} (h : s.noReset (k + 1)) :
    (nextInputs s).rst = false ∧ ∀ t : State, t.pins = (consumeInputs s).pins → t.noReset k := by
  unfold State.noReset at h
  unfold State.noReset nextInputs consumeInputs
  cases hpins : s.pins with
  | nil => exact ⟨rfl, fun t ht => by simp [ht]⟩
  | cons e rest =>
    rw [hpins, List.take_succ_cons] at h
    refine ⟨h e List.mem_cons_self, fun t ht e' he' => h e' (List.mem_cons_of_mem _ ?_)⟩
    simpa [ht] using he'

/-- A step without reset ends in the cycle its command port leads to, since the tick leaves the transmission alone. -/
theorem Transmits.of_runPort {s u v : State} {m k : Nat} (hv : Transmits s m v) (hreset : u.noReset (k + 1))
    (hcmd : runPort (acceptedCmd (nextInputs u) (consumeInputs u)) (background (consumeInputs u)) = .next v)
    (hpins : v.pins = (consumeInputs u).pins) : ∃ t, step u = .next t ∧ Transmits s m t ∧ t.noReset k := by
  obtain ⟨hr, hrest⟩ := State.noReset_succ hreset
  obtain ⟨hbuild, hmem, hstall, hsent⟩ := hv
  obtain ⟨t, hstep, hbuild', htx, hmem', hclr, hpins'⟩ := clockEdge_of_runPort hr hcmd
  exact ⟨t, hstep, ⟨hbuild'.trans hbuild, hmem'.trans hmem, hclr.trans hstall, htx ▸ hsent⟩, hrest t (hpins'.trans hpins)⟩

/-- The edge that accepts a FLUSH of a written buffer begins cycle 0. -/
theorem step_flush_transmits {s : State} {k : Nat} (haccepted : acceptedCmd (nextInputs s) s = some .flush)
    (hwritten : ∀ a < s.cfg.bufBytes, a ∈ s.pbW) (hreset : s.noReset (k + 1)) :
    ∃ t, step s = .next t ∧ Transmits s 0 t ∧ t.noReset k := by
  obtain ⟨hW1, hW2, -⟩ := s.build.admitted
  obtain ⟨-, hstall⟩ := cmdReady_iff.1 (cmdReady_of_acceptedCmd haccepted)
  have hstart : Transmits s 0 ((background (consumeInputs s)).withTx startTx) :=
    { build := by simp [consumeInputs]
      mem := by simp [consumeInputs]
      noStall := by simp [consumeInputs, hstall]
      sentTo := .inl (sending_startTx hW1 hW2) }
  refine hstart.of_runPort hreset ?_ (by simp)
  have same_port : acceptedCmd (nextInputs s) (consumeInputs s) = some .flush := haccepted
  rw [same_port]
  exact exec_flush_of_written (by simpa [State.cfg, consumeInputs] using hwritten)

/-- A busy port accepts nothing, so a step without reset goes on to the next cycle. -/
theorem Transmits.step {s u : State} {m k : Nat} (h : Transmits s m u) (hlt : m < s.cfg.flushCycles)
    (hreset : u.noReset (k + 1)) : ∃ t, Machine.step u = .next t ∧ Transmits s (m + 1) t ∧ t.noReset k := by
  obtain ⟨hW1, hW2, -⟩ := s.build.admitted
  obtain ⟨hbuild, hmem, hstall, hsending | ⟨hover, -⟩⟩ := h
  case inr => omega
  have moved : (background (consumeInputs u)).tx = advance s.cfg u.tx := by
    simp [consumeInputs, State.cfg, hsending.busy, hbuild]
  have hnext : Transmits s (m + 1) (background (consumeInputs u)) :=
    { build := by simp [consumeInputs, hbuild]
      mem := by simp [consumeInputs, hmem]
      noStall := by simp [consumeInputs, hstall]
      sentTo := moved ▸ hsending.advance hW1 hW2 }
  refine hnext.of_runPort hreset ?_ (by simp)
  have same_port : acceptedCmd (nextInputs u) (consumeInputs u) = none := acceptedCmd_of_busy hsending.busy
  rw [same_port]
  rfl

/-- A transmission goes on for its whole length, whatever commands and ticks arrive. -/
theorem Transmits.steps {s u : State} {m k : Nat} (h : Transmits s m u) (hle : m + k ≤ s.cfg.flushCycles)
    (hreset : u.noReset k) : ∃ t, Machine.steps k u = .next t ∧ Transmits s (m + k) t := by
  induction k generalizing m u with
  | zero => exact ⟨u, rfl, h⟩
  | succ k ih =>
    obtain ⟨v, hstep, hv, hrest⟩ := h.step (by omega) hreset
    obtain ⟨t, hrun, ht⟩ := ih hv (by omega) hrest
    refine ⟨t, ?_, ?_⟩
    · rw [steps_succ, hstep, andThen_next, hrun]
    · rwa [Nat.add_right_comm] at ht

/-- After an accepted FLUSH of a written buffer, each cycle of the transmission is reached. -/
theorem steps_flush_transmits {s : State} {m : Nat} (haccepted : acceptedCmd (nextInputs s) s = some .flush)
    (hwritten : ∀ a < s.cfg.bufBytes, a ∈ s.pbW) (hreset : s.noReset (m + 1)) (hle : m ≤ s.cfg.flushCycles) :
    ∃ t, steps (m + 1) s = .next t ∧ Transmits s m t := by
  obtain ⟨u, hstep, hu, hrest⟩ := step_flush_transmits haccepted hwritten hreset
  obtain ⟨t, hrun, ht⟩ := hu.steps (by omega) hrest
  rw [Nat.zero_add] at ht
  exact ⟨t, by rw [steps_succ, hstep, andThen_next, hrun], ht⟩

/-! ### The obligations -/

theorem SentTo.busy_iff {c : Config} {m : Nat} {t : Transmitter} (hW1 : c.W1) (h : SentTo c m t) :
    t.busy = true ↔ m < c.flushCycles := by
  obtain hsending | ⟨rfl, rfl⟩ := h
  · exact iff_of_true hsending.busy (hsending.lt_flushCycles hW1)
  · exact iff_of_false Bool.false_ne_true (Nat.lt_irrefl _)

/-- Settles O50: the run reaches cycle `m`, the transmitter is busy in it unless `m` is the end, and nothing else holds the
port. -/
theorem transmissionLastsFlushCycles : Obligations.TransmissionLastsFlushCycles := by
  intro s m haccepted hwritten hreset hle
  obtain ⟨t, hrun, -, -, hstall, hsent⟩ := steps_flush_transmits haccepted hwritten hreset hle
  have hbusy : t.tx.busy = true ↔ m < s.cfg.flushCycles := hsent.busy_iff s.build.admitted.1
  refine ⟨t, hrun, hbusy, ?_, fun hend => ?_⟩
  · rw [cmdReady_iff, ← Bool.not_eq_true, hbusy]
    omega
  · obtain hsending | ⟨-, hinitial⟩ := hsent
    · exact absurd hend (hsending.lt_flushCycles s.build.admitted.1).ne
    · exact hinitial

/-- Settles O51: each cycle of the run shows the closed form, and at the end both lines are low, as it says too. -/
theorem waveformHasTheClosedForm : Obligations.WaveformHasTheClosedForm := by
  intro s m haccepted hwritten hreset hle
  obtain ⟨t, hrun, hbuild, hmem, -, hsent⟩ := steps_flush_transmits haccepted hwritten hreset hle
  have hcfg : t.cfg = s.cfg := congrArg Build.cfg hbuild
  refine ⟨t, hrun, fun line => ?_⟩
  rw [← hcfg] at hsent ⊢
  rw [← hmem]
  obtain hsending | ⟨rfl, hinitial⟩ := hsent
  · exact hsending.wsOut_eq_waveform line
  · rw [wsOut_of_not_busy (by rw [hinitial]; rfl), waveform, if_neg fun ⟨hlt, _⟩ => Nat.lt_irrefl _ hlt]

end Sys2Proof.Machine
end

section
/-! SET and CLEAR (spec/42_pixel_buffer.md): what each writes (R170, R172), a later SET over an earlier one, an out-of-range
SET (R174), the stall after a CLEAR (R173), and that no other edge changes a pixel byte (R176). -/

namespace Sys2Proof.Machine

/-! ### The canonical form of the buffer

Two buffers in canonical form that read alike are one list, and so are two lists of ghost bits with the same members. -/

/-- In canonical form a byte is listed exactly where a read finds it. -/
theorem Memory.mem_iff_read {m : Memory} (h : m.wf) (a : Nat) (v : Byte) : (a, v) ∈ m ↔ m.read a = some v := by
  induction m with
  | nil => simp
  | cons p rest ih =>
    obtain ⟨k, u⟩ := p
    obtain ⟨hlow, hrest⟩ := List.pairwise_cons.1 h
    rw [List.mem_cons, ih hrest, Memory.read]
    by_cases hk : k = a
    · have not_later : Memory.read rest a ≠ some v := fun hread =>
        absurd (hlow (a, v) ((ih hrest).2 hread)) (by simp [hk])
      simp [hk, not_later, eq_comm]
    · simp [hk, Ne.symm hk]

theorem Memory.ext_of_wf {m₁ m₂ : Memory} (h₁ : m₁.wf) (h₂ : m₂.wf) (hread : ∀ a, m₁.read a = m₂.read a) : m₁ = m₂ := by
  have irrefl : Std.Irrefl fun p q : Host.Cell => p.1 < q.1 := ⟨fun p => Nat.lt_irrefl p.1⟩
  have antisymm : Std.Antisymm fun p q : Host.Cell => p.1 < q.1 := ⟨fun _ _ hlt hgt => absurd hgt (Nat.lt_asymm hlt)⟩
  refine List.Pairwise.eq_of_mem_iff h₁ h₂ fun (a, v) => ?_
  rw [Memory.mem_iff_read h₁, Memory.mem_iff_read h₂, hread]

/-! ### SET (R170, R174) -/

theorem slotOf_of_inRange {c : Config} {x y : Int} (h : (0 ≤ x ∧ x < c.n) ∧ (0 ≤ y ∧ y < c.n)) :
    slotOf c x y = some (slot c x.toNat y.toNat) :=
  if_pos (inRange_iff.2 h)

theorem slotOf_of_outOfRange {c : Config} {x y : Int} (h : ¬((0 ≤ x ∧ x < c.n) ∧ (0 ≤ y ∧ y < c.n))) :
    slotOf c x y = none :=
  if_neg (mt inRange_iff.1 h)

theorem exec_set_of_slot {s : State} {x y : Int} {i : Nat} (h : slotOf s.cfg x y = some i) (rgb : Color) :
    exec (.set x y rgb) s = .next (storeSlot i rgb s) := by
  simp only [exec, execSet, h]

theorem exec_set_of_no_slot {s : State} {x y : Int} (h : slotOf s.cfg x y = none) (rgb : Color) :
    exec (.set x y rgb) s = .next s := by
  simp only [exec, execSet, h]

/-- Settles O22: what storing a slot reads, marks and leaves alone, at the slot of the coordinate. -/
theorem setWritesItsSlotAlone : Obligations.SetWritesItsSlotAlone := by
  intro x y rgb s hx0 hxn hy0 hyn
  refine ⟨_, exec_set_of_slot (slotOf_of_inRange ⟨⟨hx0, hxn⟩, hy0, hyn⟩) rgb, fun k hk => storeSlot_read_slot _ rgb s hk,
    fun a ha => storeSlot_read_other _ rgb s (by omega), fun a => ?_, storeSlot_frame _ rgb s⟩
  rw [storeSlot_marks, Nat.lt_succ_iff]

/-- Storing a slot over itself leaves no trace of the first colour: both results are canonical, and agree byte by byte and
ghost bit by ghost bit. -/
theorem storeSlot_storeSlot {s : State} (hmem : s.pbMem.wf) (hmarks : s.pbW.wf) (i : Nat) (c₁ c₂ : Color) :
    storeSlot i c₂ (storeSlot i c₁ s) = storeSlot i c₂ s := by
  have same_mem : (storeSlot i c₂ (storeSlot i c₁ s)).pbMem = (storeSlot i c₂ s).pbMem := by
    refine Memory.ext_of_wf (storeSlot_mem_wf i c₂ (storeSlot_mem_wf i c₁ hmem)) (storeSlot_mem_wf i c₂ hmem) fun a => ?_
    by_cases outside : a < 3 * i ∨ 3 * i + 2 < a
    · simp only [storeSlot_read_other _ _ _ outside]
    · obtain ⟨k, hk, rfl⟩ : ∃ k < 3, a = byteAddr i k := ⟨a - 3 * i, by omega, by rw [byteAddr]; omega⟩
      rw [storeSlot_read_slot _ _ _ hk, storeSlot_read_slot _ _ _ hk, State.cfg, storeSlot_build]
  have same_marks : (storeSlot i c₂ (storeSlot i c₁ s)).pbW = (storeSlot i c₂ s).pbW := by
    refine List.Pairwise.eq_of_mem_iff (storeSlot_marks_wf i c₂ (storeSlot_marks_wf i c₁ hmarks))
      (storeSlot_marks_wf i c₂ hmarks) fun a => ?_
    simp only [storeSlot_marks, ← or_assoc, or_self]
  calc storeSlot i c₂ (storeSlot i c₁ s)
      = s.withBuffer (storeSlot i c₂ (storeSlot i c₁ s)).pbMem (storeSlot i c₂ (storeSlot i c₁ s)).pbW := rfl
    _ = storeSlot i c₂ s := by rw [same_mem, same_marks]; rfl

/-- Settles O24: both SETs store the one slot of the coordinate, or the first is a no-op. -/
theorem laterSetWins : Obligations.LaterSetWins := by
  intro x y c₁ c₂ s t hinv h
  cases hslot : slotOf s.cfg x y with
  | none =>
    rw [exec_set_of_no_slot hslot] at h
    cases h
    rfl
  | some i =>
    rw [exec_set_of_slot hslot] at h
    cases h
    rw [exec_set_of_slot hslot, exec_set_of_slot (s := storeSlot i c₁ s) hslot,
      storeSlot_storeSlot hinv.memSorted hinv.marksSorted]

/-- An edge whose command changes nothing is the edge without that command. -/
theorem clockEdge_eq_without_command {e : EdgeIn} {s : State}
    (h : runPort (acceptedCmd e s) (background s) = .next (background s)) :
    clockEdge e s = clockEdge { e with cmdValid := false } s := by
  rw [clockEdge, h]
  rfl

/-- An edge without reset and without a command presented leaves the buffer alone and drops the response (R34). -/
theorem clockEdge_without_command {e : EdgeIn} (hr : e.rst = false) (hvalid : e.cmdValid = false) (s : State) :
    ∃ t, clockEdge e s = .next t ∧ t.pbMem = s.pbMem ∧ t.pbW = s.pbW ∧ t.rsp.valid = false := by
  refine ⟨_, by rw [clockEdge, hr, acceptedCmd, hvalid]; exact runPort_tick e (background s), ?_⟩
  split <;> simp

/-- Settles O23: an out-of-range coordinate has no slot, so the operation answers the same state and its edge is one without
a command. -/
theorem outOfRangeSetLeavesThePixels : Obligations.OutOfRangeSetLeavesThePixels := by
  intro x y rgb s hout
  refine ⟨exec_set_of_no_slot (slotOf_of_outOfRange hout) rgb, fun e hr haccepted => ?_⟩
  have no_effect : runPort (acceptedCmd e s) (background s) = .next (background s) := by
    rw [haccepted]
    exact exec_set_of_no_slot (slotOf_of_outOfRange (by simpa [State.cfg] using hout)) rgb
  obtain ⟨t, hedge, hmem, hmarks, hrsp⟩ := clockEdge_without_command (e := { e with cmdValid := false }) hr rfl s
  exact ⟨t, (clockEdge_eq_without_command no_effect).trans hedge, hmem, hmarks, hrsp, hedge⟩

/-! ### CLEAR (R172) -/

/-- Settles O25: what filling the `N*N` slots reads, marks and leaves alone. -/
theorem clearFillsEverySlot : Obligations.ClearFillsEverySlot := by
  intro rgb s
  refine ⟨_, rfl, fun i hi k hk => fillSlots_read_slot rgb s hi hk, fun a ha => fillSlots_read_other rgb s ha,
    fun a => fillSlots_marks rgb s s.cfg.nPix a, rfl, ?_⟩
  exact congrArg (·.withClrCnt (s.cfg.clearLat - 1)) (fillSlots_frame rgb s.cfg.nPix s)

/-! ### The stall after a CLEAR (R173, R186) -/

/-- No transmission runs, and the port is held for `n` more edges. -/
def HeldFor (n : Nat) (s : State) : Prop := s.tx.busy = false ∧ s.clrCnt = n

theorem HeldFor.cmdReady_iff {n : Nat} {s : State} (h : HeldFor n s) : cmdReady s = true ↔ n = 0 := by
  obtain ⟨hidle, rfl⟩ := h
  simp [Machine.cmdReady_iff, hidle]

theorem HeldFor.acceptedCmd {n : Nat} {s : State} (h : HeldFor (n + 1) s) (e : EdgeIn) : acceptedCmd e s = none := by
  simp [acceptedCmd_eq, h.cmdReady_iff]

/-- Acceptance does not depend on the inputs still to come (R187). -/
theorem acceptedCmd_consumeInputs (e : EdgeIn) (s : State) : acceptedCmd e (consumeInputs s) = acceptedCmd e s := rfl

/-- A step without reset ends as its command port leaves it, since the tick touches neither the transmitter nor `clr_cnt`. -/
theorem HeldFor.of_runPort {s v : State} {n k : Nat} (hv : HeldFor n v) (hreset : s.noReset (k + 1))
    (hcmd : runPort (Machine.acceptedCmd (nextInputs s) (consumeInputs s)) (background (consumeInputs s)) = .next v)
    (hpins : v.pins = (consumeInputs s).pins) : ∃ t, step s = .next t ∧ HeldFor n t ∧ t.noReset k := by
  obtain ⟨hr, hrest⟩ := State.noReset_succ hreset
  obtain ⟨hidle, hheld⟩ := hv
  obtain ⟨t, hstep, -, htx, -, hclr, hpins'⟩ := clockEdge_of_runPort hr hcmd
  exact ⟨t, hstep, ⟨htx ▸ hidle, hclr.trans hheld⟩, hrest t (hpins'.trans hpins)⟩

/-- The edge that accepts a CLEAR holds the port for `CLEAR_LAT - 1` more edges. -/
theorem step_clear_heldFor {s : State} {rgb : Color} {k : Nat} (haccepted : acceptedCmd (nextInputs s) s = some (.clear rgb))
    (hreset : s.noReset (k + 1)) : ∃ t, step s = .next t ∧ HeldFor (s.cfg.clearLat - 1) t ∧ t.noReset k := by
  obtain ⟨hidle, -⟩ := cmdReady_iff.1 (cmdReady_of_acceptedCmd haccepted)
  refine HeldFor.of_runPort ?_ hreset (by rw [acceptedCmd_consumeInputs, haccepted]; rfl) (by simp)
  simp [HeldFor, State.cfg, consumeInputs, hidle]

/-- While the port is held it accepts nothing, and a step without reset counts down. -/
theorem HeldFor.step {s : State} {n k : Nat} (h : HeldFor (n + 1) s) (hreset : s.noReset (k + 1)) :
    ∃ t, Machine.step s = .next t ∧ HeldFor n t ∧ t.noReset k := by
  refine HeldFor.of_runPort ?_ hreset (by rw [acceptedCmd_consumeInputs, h.acceptedCmd]; rfl) (by simp)
  obtain ⟨hidle, hheld⟩ := h
  simp [HeldFor, consumeInputs, hidle, hheld]

/-- The hold counts down over a run, whatever commands and ticks arrive. -/
theorem HeldFor.steps {s : State} {n k : Nat} (h : HeldFor (n + k) s) (hreset : s.noReset k) :
    ∃ t, Machine.steps k s = .next t ∧ HeldFor n t := by
  induction k generalizing s with
  | zero => exact ⟨s, rfl, h⟩
  | succ k ih =>
    obtain ⟨u, hstep, hu, hrest⟩ := h.step hreset
    obtain ⟨t, hrun, ht⟩ := ih hu hrest
    exact ⟨t, by rw [steps_succ, hstep, andThen_next, hrun], ht⟩

/-- Settles O26: after `m` of the `CLEAR_LAT - 1` edges of the hold, the port is ready exactly when none is left. -/
theorem clearHoldsThePort : Obligations.ClearHoldsThePort := by
  intro rgb s m haccepted hreset hlt
  obtain ⟨u, hstep, hu, hrest⟩ := step_clear_heldFor haccepted hreset
  have split_hold : s.cfg.clearLat - 1 = (s.cfg.clearLat - 1 - m) + m := by omega
  rw [split_hold] at hu
  obtain ⟨t, hrun, ht⟩ := hu.steps hrest
  refine ⟨t, by rw [steps_succ, hstep, andThen_next, hrun], ?_⟩
  rw [ht.cmdReady_iff]
  omega

/-! ### What changes a pixel byte (R176) -/

/-- An operation that changes the pixel bytes is a SET at a coordinate with a slot, or a CLEAR. -/
theorem exec_pbMem_cases {i : Instr} {s t : State} (h : exec i s = .next t) (hne : t.pbMem ≠ s.pbMem) :
    (∃ x y rgb j, i = .set x y rgb ∧ slotOf s.cfg x y = some j) ∨ ∃ rgb, i = .clear rgb := by
  obtain ⟨-, rfl⟩ | ⟨-, rfl⟩ | ⟨x, y, rgb, rfl, ⟨-, rfl⟩ | ⟨j, hj, -⟩⟩ | ⟨rgb, rfl, -⟩ | ⟨-, -, rfl⟩ | ⟨-, rfl⟩ |
    ⟨p, -, rfl⟩ := exec_next_cases h
  case inr.inr.inl.inr => exact .inl ⟨x, y, rgb, j, rfl, hj⟩
  case inr.inr.inr.inl => exact .inr ⟨rgb, rfl⟩
  all_goals simp [flagReserved] at hne

/-- Settles O56: neither a reset, the rest of the edge nor the tick writes the buffer, so the accepted command does. -/
theorem onlySetAndClearChangePixels : Obligations.OnlySetAndClearChangePixels := by
  intro e s t h hne
  obtain ⟨-, rfl⟩ | ⟨hr, -⟩ := clockEdge_next_cases h
  · exact absurd rfl hne
  · refine ⟨hr, ?_⟩
    obtain ⟨u, hcmd, rfl⟩ := clockEdge_next_of_no_reset hr h
    have command_wrote : u.pbMem ≠ (background s).pbMem := by
      rw [background_pbMem]
      split at hne <;> simpa using hne
    obtain ⟨-, rfl⟩ | ⟨i, hi, hexec⟩ := runPort_next_cases hcmd
    · exact absurd rfl command_wrote
    · obtain ⟨x, y, rgb, j, rfl, hj⟩ | ⟨rgb, rfl⟩ := exec_pbMem_cases hexec command_wrote
      · obtain ⟨hin, -⟩ := slotOf_some hj
        exact .inl ⟨x, y, rgb, hi, by simpa [State.cfg] using inRange_iff.1 hin⟩
      · exact .inr ⟨rgb, hi⟩

end Sys2Proof.Machine
end

section
/-! The command port and the edge (spec/43_command_port.md): an edge that carries one operation or none (R185, R187), the
edge against R185's simultaneous merge, the response (R191), and the output ports. -/

namespace Sys2Proof.Machine

/-! ### An edge with one operation, or with none (R185, R187) -/

/-- What happens at every edge, as one update of the state (R34, R142, R173). -/
theorem background_eq (s : State) :
    background s =
      { s with
        rsp := { s.rsp with valid := false }
        tx := if s.tx.busy then advance s.cfg s.tx else s.tx
        clrCnt := s.clrCnt - 1 } := by
  apply State.eq_of_fields <;> simp

theorem andThen_next_right (o : Host.Outcome State Fault Refusal) : andThen o .next = o := by
  cases o <;> rfl

section
variable {e : EdgeIn} {s : State}

/-- Without a tick an edge ends as its command port leaves it. -/
theorem clockEdge_of_no_tick (hr : e.rst = false) (htick : e.rc5Tick = false) :
    clockEdge e s = runPort (acceptedCmd e s) (background s) := by
  have no_tick : tickEvent e = none := by rw [tickEvent_eq, htick]; rfl
  rw [clockEdge, hr, no_tick]
  exact andThen_next_right _

/-- Without an accepted command an edge is its tick port's. -/
theorem clockEdge_of_no_command (hr : e.rst = false) (hcmd : acceptedCmd e s = none) :
    clockEdge e s = runPort (tickEvent e) (background s) := by
  rw [clockEdge, hr, hcmd]
  rfl

theorem acceptedCmd_of_not_ready (h : cmdReady s = false) : acceptedCmd e s = none := by
  simp [acceptedCmd_eq, h]

end

/-- The tick port of an edge that carries one event alone carries what the event decodes to (R78). -/
theorem tickEvent_ofPortWord {v : BitVec 2} {i : Instr} (h : decode (.tickPort v) = .ok i) :
    tickEvent (.ofPortWord (.tickPort v)) = some i := by
  rw [tickEvent_eq]
  rw [decode, decodeTickPort] at h
  split at h
  case isTrue htick =>
    cases h
    exact if_pos htick
  case isFalse => cases h

/-- Settles O11: a step is the edge of the listed inputs, and such an edge carries the one operation. -/
theorem stepRunsTheDecodedInstruction : Obligations.StepRunsTheDecodedInstruction := by
  constructor
  · intro w i rest s hpins hready hdecode
    cases hdecode
    have command : acceptedCmd (.ofPortWord (.command w)) (s.withPins rest) = some (decodeCmd w) :=
      (acceptedCmd_eq _ _).trans (if_pos ⟨rfl, hready⟩)
    rw [step_cons hpins, clockEdge_of_no_tick rfl rfl, command]
    rfl
  · intro v i rest s hpins hdecode
    have no_command : acceptedCmd (.ofPortWord (.tickPort v)) (s.withPins rest) = none := rfl
    rw [step_cons hpins, clockEdge_of_no_command rfl no_command, tickEvent_ofPortWord hdecode]
    rfl

/-- Settles O13: with neither port carrying an operation, what happens at every edge is all. -/
theorem backgroundOfAnEdge : Obligations.BackgroundOfAnEdge := by
  refine ⟨background_eq, fun e s hr hcmd htick => ?_⟩
  rw [clockEdge_of_no_tick hr htick, hcmd, ← background_eq]
  rfl

/-- Settles O14: a port that is not ready accepts neither form, and the rest of the edge does not look at the command. -/
theorem unacceptedCommandHasNoEffect : Obligations.UnacceptedCommandHasNoEffect := by
  intro e w valid s hnot
  simp only [clockEdge, acceptedCmd_of_not_ready hnot]
  rfl

/-- Settles O18: an accepted NOP answers the state it runs on, so its edge is one without that command. -/
theorem nopChangesNothing : Obligations.NopChangesNothing := by
  refine ⟨fun _ => rfl, fun e s hnop => clockEdge_eq_without_command ?_⟩
  rw [acceptedCmd_eq, hnop]
  split <;> rfl

/-- Settles O19: the listed operations are reserved, and a reserved one sets the flag alone. -/
theorem reservedOpcodesOnlySetCmdErr : Obligations.ReservedOpcodesOnlySetCmdErr := by
  intro i hi s
  have reserved : isReserved i = true := by
    revert i
    decide
  exact exec_reserved reserved s

/-- Settles O48: the outputs read neither the decoder nor the mailbox's word. -/
theorem decoderIsInvisible : Obligations.DecoderIsInvisible :=
  ⟨fun _ => ⟨cmdReady_iff, rfl, rfl, rfl, rfl, rfl, rfl, rfl⟩, fun _ _ _ => ⟨rfl, rfl⟩⟩

/-! ### The edge against R185's simultaneous merge -/

/-- R185 counts `clr_cnt` down where it is not 0, which is the truncated difference. -/
@[simp] theorem ite_eq_zero_sub_one (k : Nat) : (if k = 0 then k else k - 1) = k - 1 := by
  split <;> omega

/-- What the tick port carries is nothing to the command port (R71). -/
@[simp] theorem acceptedCmd_with_tick (e : EdgeIn) (b : Bool) (s : State) :
    acceptedCmd { e with rc5Tick := b } s = acceptedCmd e s := rfl

theorem acceptedCmd_ne_tick (e : EdgeIn) (s : State) (p : Bool) : acceptedCmd e s ≠ some (.tick p) := by
  simp [acceptedCmd_eq, decodeCmd_ne_tick]

/-- A reserved operation is none of those that write a register of R185 other than `cmd_err`. -/
theorem ne_of_isReserved {i j : Instr} (hi : isReserved i = true) (hj : isReserved j = false) : i ≠ j := by
  rintro rfl
  exact Bool.false_ne_true (hj.symm.trans hi)

section
variable (col : Color) (k : Nat) (s : State)

/-! Stores read the configuration and the buffer alone, which `background` leaves as they are. -/

@[simp] theorem storeSlot_background_pbMem : (storeSlot k col (background s)).pbMem = (storeSlot k col s).pbMem := by
  simp [storeSlot, State.cfg]

@[simp] theorem storeSlot_background_pbW : (storeSlot k col (background s)).pbW = (storeSlot k col s).pbW := by
  simp [storeSlot]

theorem fillSlots_background :
    (fillSlots col k (background s)).pbMem = (fillSlots col k s).pbMem ∧
      (fillSlots col k (background s)).pbW = (fillSlots col k s).pbW := by
  induction k with
  | zero => simp [fillSlots]
  | succ k ih =>
    obtain ⟨hmem, hmarks⟩ := ih
    simp [fillSlots, storeSlot, State.cfg, hmem, hmarks]

end

/-- The command port's half of R185: run after `background`, the accepted command reads nothing that `background` wrote, so it
leaves the state that R185 gives for the edge without its tick. -/
theorem runPort_acceptedCmd_eq_edgeByR185 {e : EdgeIn} {s u : State}
    (h : runPort (acceptedCmd e s) (background s) = .next u) : u = edgeByR185 { e with rc5Tick := false } s := by
  obtain ⟨hnone, rfl⟩ | ⟨i, hi, hx⟩ := runPort_next_cases h
  · apply State.eq_of_fields <;> simp [edgeByR185, hnone]
  · obtain ⟨rfl, rfl⟩ | ⟨rfl, rfl⟩ | ⟨x, y, rgb, rfl, ⟨hslot, rfl⟩ | ⟨j, hslot, rfl⟩⟩ | ⟨rgb, rfl, rfl⟩ | ⟨rfl, -, rfl⟩ |
      ⟨hr, rfl⟩ | ⟨p, rfl, -⟩ := exec_next_cases hx
    · apply State.eq_of_fields <;> simp [edgeByR185, hi, isReserved, opcodeOf]
    · apply State.eq_of_fields <;> simp [edgeByR185, hi, isReserved, opcodeOf, State.cfg]
    · rw [State.cfg, background_build] at hslot
      apply State.eq_of_fields <;> simp [edgeByR185, hi, isReserved, opcodeOf, hslot]
    · rw [State.cfg, background_build] at hslot
      apply State.eq_of_fields <;> simp [edgeByR185, hi, isReserved, opcodeOf, hslot]
    · apply State.eq_of_fields <;> simp [edgeByR185, hi, isReserved, opcodeOf, State.cfg, fillSlots_background]
    · apply State.eq_of_fields <;> simp [edgeByR185, hi, isReserved, opcodeOf]
    · have not_take : i ≠ .take := ne_of_isReserved hr rfl
      have not_set (x y rgb) : i ≠ .set x y rgb := ne_of_isReserved hr rfl
      have not_clear (rgb) : i ≠ .clear rgb := ne_of_isReserved hr rfl
      have not_flush : i ≠ .flush := ne_of_isReserved hr rfl
      apply State.eq_of_fields <;> simp [edgeByR185, hi, hr, flagReserved, not_take, not_set, not_clear, not_flush]
    · exact absurd hi (acceptedCmd_ne_tick e s p)

/-- The tick port's half of R185: no command changes the decoder, and a publish is merged into the mailbox last (R119). -/
theorem runPort_tick_edgeByR185 (e : EdgeIn) (s : State) :
    runPort (tickEvent e) (edgeByR185 { e with rc5Tick := false } s) = .next (edgeByR185 e s) := by
  rw [runPort_tick]
  cases htick : e.rc5Tick with
  | false =>
    have unchanged : { e with rc5Tick := false } = e := by rw [← htick]
    rw [unchanged]
    rfl
  | true =>
    simp only [edgeByR185, htick, acceptedCmd_with_tick, if_true, Bool.false_eq_true, if_false]
    cases (tickDecoder s.cfg e.rc5In s.dec).2 <;> rfl

/-- An edge without reset that answers a next state answers R185's. -/
theorem clockEdge_eq_edgeByR185 {e : EdgeIn} {s t : State} (hr : e.rst = false) (h : clockEdge e s = .next t) :
    t = edgeByR185 e s := by
  obtain ⟨hr', -⟩ | ⟨-, u, hcmd, htick⟩ := clockEdge_next_cases h
  · exact absurd (hr.symm.trans hr') Bool.false_ne_true
  · rw [runPort_acceptedCmd_eq_edgeByR185 hcmd, runPort_tick_edgeByR185] at htick
    cases htick
    rfl

/-- Settles O15: the edge answers a next state, since the FLUSH that would stop it has an unwritten byte. -/
theorem edgeIsTheSimultaneousMerge : Obligations.EdgeIsTheSimultaneousMerge := by
  intro e s hr hwritten
  obtain ⟨t, hedge⟩ | ⟨-, hflush, a, hfind, -⟩ := clockEdge_next_or_unwritten e s
  · rw [hedge, clockEdge_eq_edgeByR185 hr hedge]
  · obtain ⟨ha, hunwritten, -⟩ := firstUnwritten_some hfind
    exact absurd (hwritten hflush a ha) hunwritten

/-! ### The response (R191) -/

/-- R185's equation of the response registers. -/
theorem clockEdge_rsp {e : EdgeIn} {s t : State} (hr : e.rst = false) (h : clockEdge e s = .next t) :
    t.rsp =
      { valid := decide (acceptedCmd e s = some .take)
        data := if acceptedCmd e s = some .take then takeData s.cfg s.mbox else s.rsp.data } := by
  rw [clockEdge_eq_edgeByR185 hr h]
  rfl

/-- Settles O42: R185's equation at an edge without reset; a reset edge clears `rsp_valid`. -/
theorem responseShowsForOneCycle : Obligations.ResponseShowsForOneCycle := by
  intro e s t h
  refine ⟨?_, fun hr htake => ?_, fun hr hno => ?_⟩
  · cases hr : e.rst with
    | true =>
      obtain ⟨-, rfl⟩ | ⟨hr', -⟩ := clockEdge_next_cases h
      · simp [clockReset]
      · exact absurd (hr'.symm.trans hr) Bool.false_ne_true
    | false => simp [clockEdge_rsp hr h]
  · rw [clockEdge_rsp_of_take hr htake h]
    exact toNat_takeData s.cfg s.mbox
  · rw [clockEdge_rsp hr h, if_neg hno]

end Sys2Proof.Machine
end

section
/-! Nothing to do (spec/60_exceptions.md R216): an edge at which no unit is active, and ticks on a line that stays at its
level. -/

namespace Sys2Proof.Machine

/-! ### An edge with nothing to do -/

/-- With no transmission, no CLEAR stall and no response showing, what happens at every edge is nothing (R34, R142, R173). -/
theorem background_of_inactive {s : State} (htx : s.tx.busy = false) (hclr : s.clrCnt = 0) (hrsp : s.rsp.valid = false) :
    background s = s := by
  have response_kept : { s.rsp with valid := false } = s.rsp := by rw [← hrsp]
  apply State.eq_of_fields <;> simp [htx, hclr, response_kept]

/-- Settles O17: an edge that carries no operation is what happens at every edge, of a state with nothing active. -/
theorem quietEdgeChangesNothing : Obligations.QuietEdgeChangesNothing := by
  intro e rest s hpins hr hvalid htick htx hclr hrsp
  have no_command : acceptedCmd e (s.withPins rest) = none := by simp [acceptedCmd_eq, hvalid]
  rw [step_cons hpins, clockEdge_of_no_tick hr htick, no_command,
    background_of_inactive (s := s.withPins rest) htx hclr hrsp]
  rfl

/-! ### Ticks on a quiet line (R103, R104) -/

theorem toNat_ofNat_elapsed (d : Decoder) : (BitVec.ofNat 8 (elapsed d)).toNat = elapsed d := by
  rw [← satInc_toNat_eq_elapsed, BitVec.ofNat_toNat, BitVec.setWidth_eq]

/-- What a timeout publishes, with the validator read as a range of numbers (R104, R105). -/
theorem toList_startValid (a : AccWord) :
    (if startValid a then some (a.extractLsb' 0 14) else none).toList =
      if a.toNat / 2 ^ 12 = 3 then [a.extractLsb' 0 14] else [] := by
  simp only [startValid_iff, apply_ite Option.toList, Option.toList_some, Option.toList_none]

/-- Quiet ticks enough to saturate the counter leave the decoder idle: the tick past `PULSE_MAX`, which W4 puts before the
saturation, publishes what was collected, and from then on there is nothing to publish. -/
theorem decodeTicks_quiet {b : Build} {d : Decoder} {k : Nat} (hcnt : 255 ≤ d.cnt.toNat + k)
    (htimeout : d.acc = 0 ∨ 0 < k) :
    decodeTicks b.cfg (List.replicate k d.lvl) d =
      ({ d with acc := 0, cnt := 255 },
        if d.acc.toNat / 2 ^ 12 = 3 then [d.acc.extractLsb' 0 14] else []) := by
  induction k generalizing d with
  | zero =>
    obtain ⟨acc, lvl, phase, cnt⟩ := d
    obtain rfl : acc = 0 := htimeout.resolve_right (lt_irrefl 0)
    obtain rfl : cnt = 255 := by bv_omega
    simp [decodeTicks]
  | succ k ih =>
    obtain ⟨-, -, -, hmax⟩ := b.thresholds
    have hlvl := inputStage_pinOf b.cfg d.lvl
    have helapsed : elapsed d = min (d.cnt.toNat + 1) 255 := rfl
    have hcnt' : 255 ≤ (BitVec.ofNat 8 (elapsed d)).toNat + k := by rw [toNat_ofNat_elapsed]; omega
    rw [List.replicate_succ]
    by_cases hlate : b.cfg.pulseMax < elapsed d
    · rw [decodeTicks_cons (tickDecoder_timeout hlvl hlate), toList_startValid,
        ih (d := { d with acc := 0, cnt := BitVec.ofNat 8 (elapsed d) }) hcnt' (.inl rfl)]
      simp
    · rw [decodeTicks_cons (tickDecoder_count hlvl (not_lt.1 hlate)),
        ih (d := { d with cnt := BitVec.ofNat 8 (elapsed d) }) hcnt' (.inr (by omega))]
      rfl

/-- Settles O43: 255 ticks saturate the counter from any value. -/
theorem quietLineSettles : Obligations.QuietLineSettles :=
  fun _ _ _ hk => decodeTicks_quiet (by omega) (.inr (by omega))

end Sys2Proof.Machine
end

section
/-! Reset and hazards (spec/70_reset_and_hazards.md): a reset edge (R230, R232), and how far apart two publishes are (R236).
The registers of the decoder bound how soon it can publish: each tick lowers that bound by one at most, and a publish puts it
back to `G`. -/

namespace Sys2Proof.Machine

/-! ### A reset edge (R230) -/

theorem clockEdge_of_reset {e : EdgeIn} (hr : e.rst = true) (s : State) : clockEdge e s = .next (clockReset s) :=
  if_pos hr

/-- Settles O10: the edge is a reset edge, which reads the configuration, the pixel bytes and the inputs to come alone. -/
theorem resetEdgeMasksEverything : Obligations.ResetEdgeMasksEverything := by
  intro e rest s hpins hr
  rw [step_cons hpins, clockEdge_of_reset hr]
  rfl

/-! ### How soon the decoder can publish (R104, R107) -/

/-- The bits the accumulator has still to take before it holds 14, counted from its leading 1; 13 where it is empty. -/
def bitsMissing (a : AccWord) : Nat := 13 - Nat.log 2 a.toNat

/-- The fewest ticks between two mid-bit transitions: two short intervals or one long one (R236). -/
def minBitTicks (c : Config) : Nat := min (2 * c.pulseMin) (c.pulseMid + 1)

/-- The fewest ticks there can have been since the last mid-bit transition. -/
def ticksIntoBit (c : Config) (d : Decoder) : Nat :=
  match d.phase with
  | .mid => d.cnt.toNat
  | .bnd => c.pulseMin + d.cnt.toNat

theorem cnt_le_ticksIntoBit (c : Config) (d : Decoder) : d.cnt.toNat ≤ ticksIntoBit c d := by
  unfold ticksIntoBit
  cases d.phase
  · exact le_rfl
  · exact Nat.le_add_left ..

/-- A publish takes at least this many ticks: `G` from an empty accumulator, else the bits missing and then the timeout. -/
def ticksToPublish (c : Config) (d : Decoder) : Nat :=
  if d.acc = 0 then c.publishGap else bitsMissing d.acc * minBitTicks c + (c.pulseMax + 1) - ticksIntoBit c d

/-- One shift supplies one missing bit at most. -/
theorem bitsMissing_le_shiftIn (a : AccWord) (v : Bool) : bitsMissing a ≤ bitsMissing (shiftIn a v) + 1 := by
  by_cases hguard : 2 ^ 14 ≤ a.toNat
  · rw [shiftIn_of_guard hguard]
    exact Nat.le_succ _
  · have halved : (shiftIn a v).toNat / 2 = a.toNat := by
      have := v.toNat_lt
      rw [toNat_shiftIn (not_le.1 hguard)]
      omega
    have hlog := Nat.log_div_base 2 (shiftIn a v).toNat
    rw [halved] at hlog
    unfold bitsMissing
    omega

/-- What the validator accepts has all its bits. -/
theorem bitsMissing_of_startValid {a : AccWord} (h : startValid a = true) : bitsMissing a = 0 := by
  have range := (startValid_iff a).1 h
  exact Nat.sub_eq_zero_of_le (Nat.le_log_of_pow_le one_lt_two (by omega))

theorem publishGap_eq (c : Config) : c.publishGap = 13 * minBitTicks c + (c.pulseMax + 1) := Nat.add_comm _ _

theorem ticksToPublish_idle {c : Config} {d : Decoder} (h : d.acc = 0) : ticksToPublish c d = c.publishGap := if_pos h

theorem ticksToPublish_collecting {c : Config} {d : Decoder} (h : d.acc ≠ 0) :
    ticksToPublish c d = bitsMissing d.acc * minBitTicks c + (c.pulseMax + 1) - ticksIntoBit c d := if_neg h

theorem bitsMissing_mul_le (c : Config) (a : AccWord) : bitsMissing a * minBitTicks c ≤ 13 * minBitTicks c :=
  Nat.mul_le_mul_right _ (Nat.sub_le 13 _)

theorem ticksToPublish_le_publishGap (c : Config) (d : Decoder) : ticksToPublish c d ≤ c.publishGap := by
  have := bitsMissing_mul_le c d.acc
  by_cases hacc : d.acc = 0
  · rw [ticksToPublish_idle hacc]
  · rw [ticksToPublish_collecting hacc, publishGap_eq]
    omega

theorem le_ticksToPublish (c : Config) (d : Decoder) :
    bitsMissing d.acc * minBitTicks c + (c.pulseMax + 1) - ticksIntoBit c d ≤ ticksToPublish c d := by
  have := bitsMissing_mul_le c d.acc
  by_cases hacc : d.acc = 0
  · rw [ticksToPublish_idle hacc, publishGap_eq]
    omega
  · rw [ticksToPublish_collecting hacc]

/-- An edge that finds the accumulator empty leaves the decoder with 13 bits missing, or still idle (R109). -/
theorem ticksToPublish_started (c : Config) (v w : Bool) :
    ticksToPublish c { acc := if v then 1 else 0, lvl := w, phase := .mid, cnt := 0 } = c.publishGap := by
  cases v
  · exact ticksToPublish_idle rfl
  · rw [ticksToPublish_collecting (show (1 : AccWord) ≠ 0 by decide), publishGap_eq]
    simp [bitsMissing, ticksIntoBit]

/-- A decoder with more than one tick to go does not publish at the next one. -/
theorem tickDecoder_publishes_nothing {c : Config} {d : Decoder} (p : Bool) (h : 1 < ticksToPublish c d) :
    (tickDecoder c p d).2 = none := by
  cases hpub : (tickDecoder c p d).2 with
  | none => rfl
  | some w =>
    obtain ⟨late, valid, -⟩ := tickDecoder_publishes hpub
    have collecting : d.acc ≠ 0 := fun hacc => by simp [hacc, startValid_iff] at valid
    have waited := cnt_le_ticksIntoBit c d
    rw [satInc_toNat] at late
    rw [ticksToPublish_collecting collecting, bitsMissing_of_startValid valid, Nat.zero_mul] at h
    omega

/-- A mid-bit transition supplies one bit, and comes no sooner than a whole bit after the one before it (R111, R112). -/
theorem ticksToPublish_le_midBit {c : Config} {d d' : Decoder} {v : Bool} (hacc : d.acc ≠ 0)
    (hshift : d'.acc = shiftIn d.acc v) (hnew : ticksIntoBit c d' = 0) (hbit : minBitTicks c ≤ ticksIntoBit c d + 1) :
    ticksToPublish c d ≤ ticksToPublish c d' + 1 := by
  have bound := le_ticksToPublish c d'
  have supplied := Nat.mul_le_mul_right (minBitTicks c) (bitsMissing_le_shiftIn d.acc v)
  rw [hshift, hnew] at bound
  rw [Nat.succ_mul] at supplied
  rw [ticksToPublish_collecting hacc]
  omega

/-- Where the accumulator is kept, so are the bits missing, and one tick takes the decoder one tick further into the bit. -/
theorem ticksToPublish_le_keptAcc {c : Config} {d d' : Decoder} (hacc : d'.acc = d.acc)
    (hbit : ticksIntoBit c d' ≤ ticksIntoBit c d + 1) : ticksToPublish c d ≤ ticksToPublish c d' + 1 := by
  unfold ticksToPublish
  rw [hacc]
  split <;> omega

/-- A decoder emptied, or started on a new word, has the whole of `G` before it. -/
theorem ticksToPublish_le_fullGap {c : Config} {d d' : Decoder} (h : ticksToPublish c d' = c.publishGap) :
    ticksToPublish c d ≤ ticksToPublish c d' + 1 :=
  h ▸ (ticksToPublish_le_publishGap c d).trans (Nat.le_succ _)

section
variable {b : Build} {p : Bool} {d : Decoder}

/-- A timeout empties the accumulator, and an edge beside it starts a word (R104, R109). -/
theorem ticksToPublish_timeout (hmax : b.cfg.pulseMax < elapsed d) :
    ticksToPublish b.cfg (tickDecoder b.cfg p d).1 = b.cfg.publishGap := by
  obtain ⟨-, hmin, hmid, -⟩ := b.thresholds
  by_cases hlvl : inputStage b.cfg p = d.lvl
  · rw [tickDecoder_timeout hlvl hmax]
    exact ticksToPublish_idle rfl
  · rw [tickDecoder_start hlvl (by omega) (by rw [timeoutStage_after _ hmax])]
    exact ticksToPublish_started ..

/-- An edge before the timeout brings a publish nearer by one tick at most, by the class of the edge (R107). -/
theorem ticksToPublish_le_edge (hlvl : inputStage b.cfg p ≠ d.lvl) (hmax : elapsed d ≤ b.cfg.pulseMax) :
    ticksToPublish b.cfg d ≤ ticksToPublish b.cfg (tickDecoder b.cfg p d).1 + 1 := by
  have hcnt : elapsed d ≤ d.cnt.toNat + 1 := min_le_left _ _
  by_cases hmin : elapsed d < b.cfg.pulseMin
  · rw [tickDecoder_glitch hlvl hmax hmin]
    exact ticksToPublish_le_fullGap (ticksToPublish_idle rfl)
  rw [not_lt] at hmin
  by_cases hacc : d.acc = 0
  · rw [tickDecoder_start hlvl hmin (by rw [hacc, timeoutStage_idle])]
    exact ticksToPublish_le_fullGap (ticksToPublish_started ..)
  by_cases hmid : elapsed d ≤ b.cfg.pulseMid <;> cases hphase : d.phase
  case pos.mid =>
    rw [tickDecoder_boundary hlvl hacc hphase hmin hmid hmax]
    refine ticksToPublish_le_keptAcc rfl ?_
    simp only [ticksIntoBit, hphase, BitVec.ofNat_eq_ofNat, BitVec.toNat_ofNat]
    omega
  case pos.bnd =>
    rw [tickDecoder_midShort hlvl hacc hphase hmin hmid hmax]
    refine ticksToPublish_le_midBit hacc rfl rfl ?_
    simp only [minBitTicks, ticksIntoBit, hphase]
    omega
  case neg.mid =>
    rw [tickDecoder_midLong hlvl hacc hphase hmin (not_le.1 hmid) hmax]
    refine ticksToPublish_le_midBit hacc rfl rfl ?_
    simp only [minBitTicks, ticksIntoBit, hphase]
    omega
  case neg.bnd =>
    rw [tickDecoder_malformed hlvl hacc hphase hmin (not_le.1 hmid) hmax]
    exact ticksToPublish_le_fullGap (ticksToPublish_idle rfl)

/-- A tick brings a publish nearer by one tick at most. -/
theorem ticksToPublish_le_tick (b : Build) (p : Bool) (d : Decoder) :
    ticksToPublish b.cfg d ≤ ticksToPublish b.cfg (tickDecoder b.cfg p d).1 + 1 := by
  by_cases hmax : b.cfg.pulseMax < elapsed d
  · exact ticksToPublish_le_fullGap (ticksToPublish_timeout hmax)
  rw [not_lt] at hmax
  by_cases hlvl : inputStage b.cfg p = d.lvl
  · rw [tickDecoder_count hlvl hmax]
    refine ticksToPublish_le_keptAcc rfl ?_
    have hcnt : elapsed d ≤ d.cnt.toNat + 1 := min_le_left _ _
    cases hphase : d.phase <;> simp only [ticksIntoBit, hphase, toNat_ofNat_elapsed] <;> omega
  · exact ticksToPublish_le_edge hlvl hmax

/-- A run shorter than the ticks a publish takes publishes nothing. -/
theorem decodeTicks_publishes_nothing {vs : List Bool} (h : vs.length < ticksToPublish b.cfg d) :
    (decodeTicks b.cfg vs d).2 = [] := by
  induction vs generalizing d with
  | nil => rfl
  | cons v vs ih =>
    have nearer := ticksToPublish_le_tick b (pinOf b.cfg v) d
    rw [List.length_cons] at h
    have htick : tickDecoder b.cfg (pinOf b.cfg v) d = ((tickDecoder b.cfg (pinOf b.cfg v) d).1, none) :=
      Prod.ext rfl (tickDecoder_publishes_nothing _ (by omega))
    rw [decodeTicks_cons htick, ih (by omega)]
    rfl

end

/-- Settles O46: a tick publishes only at the timeout, and that leaves the decoder `G` ticks from the next publish. -/
theorem publishesAreGTicksApart : Obligations.PublishesAreGTicksApart := by
  intro b d p ps w hpub hlen
  obtain ⟨late, -, -⟩ := tickDecoder_publishes hpub
  rw [satInc_toNat_eq_elapsed] at late
  exact decodeTicks_publishes_nothing (by rwa [ticksToPublish_timeout late])

end Sys2Proof.Machine
end
